-- ==== Sys2Proof/Word.lean ====
section
/-! DEFINITION. The block's plain value types: words, bytes and byte offsets (R10, R51). -/

namespace Sys2Proof

/-- A word: "`WORD` | 32 bits | width of every register, descriptor and identity word" (R7, R10). -/
abbrev Word := BitVec 32

/-- A byte: "a byte is 8 bits" (R50). -/
abbrev Byte := BitVec 8

/-- A byte offset into the CFAM address space: "`addr` is a 21-bit value" (R51). -/
abbrev Addr := BitVec 21

end Sys2Proof
end

