-- ==== Sys2Proof/Machine/AddressMap.lean ====
section
/-! DEFINITION. The numbers the source fixes (R7): bases, sizes, and the enumeration's base and stride. -/

namespace Sys2Proof

/-- `CFAM_SIZE`: size of the CFAM address space in bytes (R7). -/
@[simp] def cfamSize : Nat := 0x200000

/-- `CFG_SIZE`: size of the Configuration Region, which lies at `CFG_BASE` = 0 (R7). -/
@[simp] def cfgSize : Nat := 0x400

/-- `SLAVE_BASE`: offset of the primary-slave register window (R7). -/
@[simp] def slaveBase : Nat := 0x800

/-- `LBUS_BASE`: offset of the Secondary Bus region (R7). -/
@[simp] def lbusBase : Nat := 0xC00

/-- `ENUM_BASE`: byte address of the first attached engine's slot in the configuration table (R7). -/
@[simp] def enumBase : Nat := 0x0C

/-- `ENUM_STRIDE`: bytes of configuration address per attached engine (R7). -/
@[simp] def enumStride : Nat := 4

end Sys2Proof
end

