-- ==== Sys2Proof/Config.lean ====
section
/-! DEFINITION. What the platform fixes at construction (R8, R17), as plain data, and the free values: what the
spec leaves to something outside the block. A free value is an opaque constant: no proof can see what it is. -/

namespace Sys2Proof

/-- The type of an attached engine. `scratchpad` is the one type the source defines (R175); `other t` is a type
known only by its tag `t` and by the contract of R150. -/
inductive EngineType where
  | scratchpad
  | other (tag : Nat)
deriving DecidableEq, Repr

/-- An attached engine (R150): its type, and the place of its register window in the Secondary Bus region. -/
structure Engine where
  type    : EngineType
  winBase : Nat
  winSize : Nat
deriving DecidableEq, Repr

/-- A bit field of a word, from bit `hi` down to bit `lo` (R11). -/
structure BitField where
  hi : Nat
  lo : Nat
deriving DecidableEq, Repr, Inhabited

/-- `DESC_LAYOUT` (R31): where the fields of a descriptor word lie. The integrity nibble is "trailing", bits 3:0.
No rule routes on a field. -/
structure DescLayout where
  continuation : Nat
  slotCount    : BitField
  version      : BitField
  typeTag      : BitField
deriving DecidableEq, Repr, Inhabited

/-- The parameters of R8. `further` is `ENGINES` after the bootstrap Scratchpad, which construction always attaches
first (R211). -/
structure Config where
  chipId               : Word
  chipIdBreak          : Word
  peekDescriptor       : Word
  fsiDescriptor        : Word
  scratchpadDescriptor : Word
  slaveSize            : Nat
  lbusSize             : Nat
  scratchWin           : Nat
  further              : List Engine
  accessSizes          : List Nat
  layout               : DescLayout
deriving DecidableEq, Repr, Inhabited

/-- An access delivered to the external primary-slave component (R106, R107), at an offset inside its window. -/
inductive SlaveAccess where
  | read (offset : Nat)
  | write (offset : Nat) (data : Word)
deriving DecidableEq, Repr

/-- A diagnostic event (R201): its content is given, its format is not. -/
inductive TraceEvent where
  | read (addr size : Nat)
  | write (addr size data : Nat)
  | unrecognisedWrite (addr size data : Nat)
deriving DecidableEq, Repr

namespace Config

/-- Free value: the parameters of R8 as the platform supplies them (R219). R8 prints no value, so none is known.
Logs 2, 3. -/
opaque supplied : Config

/-- Free value (R106, a `draw` under no law): the primary-slave component's answer to a read, from the number of
free values taken before, the accesses delivered to it before, and the offset. Log 4. -/
opaque slaveAnswer : Nat → List SlaveAccess → Nat → Word

/-- Free value (R200, "may emit"): whether an event is emitted, from the number of free values taken before and the
event. Log 9. -/
opaque emitsEvent : Nat → TraceEvent → Bool

/-- Parameter `desc(t)` of an engine type other than Scratchpad (R150). Log 5. -/
opaque otherDescriptor : Nat → Word

/-- Parameter `s_reset(t)` of an engine type other than Scratchpad (R150). Log 5. -/
opaque otherReset : Nat → Nat

/-- Parameter `read_t(s, r)` of an engine type `t` other than Scratchpad (R150): the word and the new state. Log 5. -/
opaque otherRead : Nat → Nat → Nat → Word × Nat

/-- Parameter `write_t(s, r, data)` of an engine type `t` other than Scratchpad (R150): the new state. Log 5. -/
opaque otherWrite : Nat → Nat → Nat → Word → Nat

end Config

end Sys2Proof
end

