-- ==== Sys2Proof/Syntax.lean ====
section
/-! DEFINITION. The host transaction (R80), the operations it selects (the 21 rows of R89), what a completed
transaction returns (R13), and the reasons a transaction is outside the admitted interface (R56, R57). -/

namespace Sys2Proof

/-- A host transaction (R80): a read of `size` bytes at `addr`, or a write of `8*size` bits of data there. -/
inductive Transaction where
  | rd (addr : Addr) (size : Nat)
  | wr (addr : Addr) (size : Nat) (data : BitVec (8 * size))
deriving DecidableEq, Repr

/-- The first byte's offset (R80). -/
def Transaction.addr : Transaction → Addr
  | .rd a _ => a
  | .wr a _ _ => a

/-- The number of bytes (R80). -/
def Transaction.size : Transaction → Nat
  | .rd _ n => n
  | .wr _ n _ => n

/-- `RD4 addr` of R94. -/
def Transaction.rd4 (a : Addr) : Transaction := .rd a 4

/-- `WR4 addr, data` of R94. -/
def Transaction.wr4 (a : Addr) (w : Word) : Transaction := .wr a 4 w

/-- What a completed transaction gives the host (R13, R80): a read a value of `8*size` bits, a write nothing. -/
inductive Reply where
  | read (size : Nat) (value : BitVec (8 * size))
  | written
deriving DecidableEq, Repr

/-- Why a transaction is outside the admitted interface (R56, R57). Each is a refusal of the model (R14): safe, the
model gives the transaction no meaning where the source gives none. -/
inductive Reject where
  /-- R57 (a): `size` is not in `ACCESS_SIZES`. -/
  | sizeNotInAccessSizes
  /-- R57 (b): `addr + size > 0x200000`. -/
  | pastEndOfSpace
  /-- R56: the first byte lies in a mapped region and `size != 4`. -/
  | mappedWidthNotFour
  /-- R56: the first byte lies in a mapped region and `addr mod 4 != 0`. -/
  | mappedMisaligned
  /-- R57 (c): the bytes do not all lie in one region. -/
  | bytesInTwoRegions
deriving DecidableEq, Repr

/-- The operations of R89, one constructor per row of spec/opcode_table.json. Operands: `k` a configuration slot index
(R85), `unit` a register unit (R84), `o` an offset inside a region, `j` an engine's index and `r` an engine-relative
offset (R86), `data` the word written. -/
inductive Instr where
  /-- CFG.RD.CHIPID (R120). -/
  | cfgRdChipid
  /-- CFG.RD.PEEK (R121). -/
  | cfgRdPeek
  /-- CFG.RD.FSI (R122). -/
  | cfgRdFsi
  /-- CFG.RD.ENGINE (R123). -/
  | cfgRdEngine (k : Nat)
  /-- CFG.RD.END (R124). -/
  | cfgRdEnd
  /-- CFG.RD.BREAK (R125). -/
  | cfgRdBreak (k : Nat)
  /-- CFG.WR.CHIPID (R131). -/
  | cfgWrChipid (data : Word)
  /-- CFG.WR.PEEK (R132). -/
  | cfgWrPeek (data : Word)
  /-- CFG.WR.OTHER (R133). -/
  | cfgWrOther (unit : Nat) (data : Word)
  /-- SLV.RD (R106). -/
  | slvRd (o : Nat)
  /-- SLV.WR (R107). -/
  | slvWr (o : Nat) (data : Word)
  /-- SCR.RD.DATA (R170). -/
  | scrRdData (j : Nat)
  /-- SCR.RD.PAD (R171). -/
  | scrRdPad (j r : Nat)
  /-- SCR.WR.DATA (R172). -/
  | scrWrData (j : Nat) (data : Word)
  /-- SCR.WR.PAD (R173). -/
  | scrWrPad (j r : Nat) (data : Word)
  /-- LBUS.RD.ENG (R156). -/
  | lbusRdEng (j r : Nat)
  /-- LBUS.WR.ENG (R157). -/
  | lbusWrEng (j r : Nat) (data : Word)
  /-- LBUS.RD.HOLE (R158). -/
  | lbusRdHole (o : Nat)
  /-- LBUS.WR.HOLE (R159). -/
  | lbusWrHole (o : Nat) (data : Word)
  /-- UNM.RD (R104). -/
  | unmRd (addr : Addr) (size : Nat)
  /-- UNM.WR (R105). -/
  | unmWr (addr : Addr) (size : Nat) (data : BitVec (8 * size))
deriving DecidableEq, Repr

end Sys2Proof
end

