-- ==== Sys2Proof/Machine/Operands.lean ====
section
/-! DEFINITION. How an address is taken apart (R83 to R86), which transactions are admitted (R55 to R58, R102), the
fields of a descriptor word (R31), and the byte lanes of a word (R54). -/

namespace Sys2Proof

/-- The four regions of R60. -/
inductive Region where
  | cfg
  | slave
  | lbus
  | unmapped
deriving DecidableEq, Repr

/-- Region select, R83: "the order of the tests does not matter", and each upper bound is a comparison of the offset
inside the region, guarded by its lower bound (R87). -/
def region (c : Config) (a : Nat) : Region :=
  if a < cfgSize then .cfg
  else if lbusBase ≤ a ∧ a - lbusBase < c.lbusSize then .lbus
  else if slaveBase ≤ a ∧ a - slaveBase < c.slaveSize then .slave
  else .unmapped

/-- Register unit, R84: `addr >> 2`. -/
def regUnit (a : Nat) : Nat := a / 4

/-- Configuration slot index, R85: `(addr - 0x0C) / 4`, for `addr >= 0x0C`. -/
def slotIndex (a : Nat) : Nat := (a - enumBase) / enumStride

/-- Configuration slot address, R85: attached engine `j` is assigned `0x0C + 4*j`. -/
def slotAddr (j : Nat) : Nat := enumBase + enumStride * j

/-- The offset `o` lies in the engine's window (R61, R86). -/
def Engine.covers (e : Engine) (o : Nat) : Bool :=
  decide (e.winBase ≤ o ∧ o < e.winBase + e.winSize)

/-- The engine hit of R86, with its index; none in a hole. Windows are disjoint, so the first hit is the only one. -/
def windowHit : List Engine → Nat → Option (Nat × Engine)
  | [], _ => none
  | e :: es, o =>
    if e.covers o then some (0, e) else (windowHit es o).map (fun h => (h.1 + 1, h.2))

/-- All bytes `[addr, addr + size)` lie in the region of the first one (R57, R102). -/
def inOneRegion (c : Config) (a size : Nat) : Bool :=
  (List.range size).all fun i => decide (region c (a + i) = region c a)

/-- Why a transaction is not admitted, none when it is (R55 to R58, R102). Where several reasons hold, the order of
the tests picks the name reported (log 6). -/
def reject? (c : Config) (t : Transaction) : Option Reject :=
  if t.size ∉ c.accessSizes then some .sizeNotInAccessSizes
  else if cfamSize < t.addr.toNat + t.size then some .pastEndOfSpace
  else if region c t.addr.toNat ≠ .unmapped ∧ t.size ≠ 4 then some .mappedWidthNotFour
  else if region c t.addr.toNat ≠ .unmapped ∧ t.addr.toNat % 4 ≠ 0 then some .mappedMisaligned
  else if inOneRegion c t.addr.toNat t.size = false then some .bytesInTwoRegions
  else none

/-- `bits[hi:lo]` as an unsigned integer (R11). -/
def BitField.get (f : BitField) (w : Word) : Nat :=
  w.toNat / 2 ^ f.lo % 2 ^ (f.hi + 1 - f.lo)

/-- The descriptor's continuation flag, "more engines follow" (R31). -/
def DescLayout.continues (l : DescLayout) (w : Word) : Bool := w.getLsbD l.continuation

/-- The descriptor's integrity nibble: "trailing", bits 3:0 (R31). -/
def DescLayout.integrity (w : Word) : Nat := BitField.get ⟨3, 0⟩ w

/-- Byte `i` of a word in address order, R54: the byte at `a` is `w[31:24]`, at `a+3` it is `w[7:0]`. -/
def lane (w : Word) (i : Nat) : Byte := (w >>> (8 * (3 - i))).setWidth 8

end Sys2Proof
end

