-- ==== Sys2Proof/WellFormed.lean ====
section
/-! DEFINITION. The constraints of R8 on a configuration and on the windows of the engine list, and which operations
the rows of R89 select in a given configuration (R82, R89). -/

namespace Sys2Proof

/-- The bootstrap Scratchpad (R211): window base 0, window size `SCRATCH_WIN`. -/
def Config.bootstrap (c : Config) : Engine := ⟨.scratchpad, 0, c.scratchWin⟩

/-- `ENGINES` as configured (R8, R9): the bootstrap Scratchpad, then the further engines. -/
def Config.engines (c : Config) : List Engine := c.bootstrap :: c.further

/-- R8: `CHIP_ID_BREAK != 0` and `CHIP_ID_BREAK != CHIP_ID`. -/
def Config.identityOk (c : Config) : Bool :=
  decide (c.chipIdBreak ≠ 0) && decide (c.chipIdBreak ≠ c.chipId)

/-- A field of a descriptor lies in a word above the integrity nibble (R31; log 16). -/
def BitField.placed (f : BitField) : Bool := decide (4 ≤ f.lo ∧ f.lo ≤ f.hi ∧ f.hi ≤ 31)

/-- Two fields share no bit (R29: a word "composed of" its fields; log 16). -/
def BitField.apart (f g : BitField) : Bool := decide (f.hi < g.lo ∨ g.hi < f.lo)

/-- R31: five fields of one word that share no bit (log 16). -/
def DescLayout.ok (l : DescLayout) : Bool :=
  let flag : BitField := ⟨l.continuation, l.continuation⟩
  flag.placed && l.slotCount.placed && l.version.placed && l.typeTag.placed
    && flag.apart l.slotCount && flag.apart l.version && flag.apart l.typeTag
    && l.slotCount.apart l.version && l.slotCount.apart l.typeTag && l.version.apart l.typeTag

/-- R8: a descriptor constant is non-zero and has its continuation flag set. -/
def Config.descriptorOk (c : Config) (w : Word) : Bool := decide (w ≠ 0) && c.layout.continues w

/-- R8: `0 < W <= 0x400`, `W mod 4 = 0`; `X mod 4 = 0`, `0xC00 + X <= 0x200000`; `SCRATCH_WIN` likewise. -/
def Config.sizesOk (c : Config) : Bool :=
  decide (0 < c.slaveSize ∧ c.slaveSize ≤ 0x400 ∧ c.slaveSize % 4 = 0)
    && decide (c.lbusSize % 4 = 0 ∧ lbusBase + c.lbusSize ≤ cfamSize)
    && decide (4 ≤ c.scratchWin ∧ c.scratchWin % 4 = 0 ∧ c.scratchWin ≤ c.lbusSize)

/-- R8: a window's base and size are multiples of 4, its size is at least 4, and it lies inside `[0, X)`. -/
def Engine.windowOk (lbusSize : Nat) (e : Engine) : Bool :=
  decide (e.winBase % 4 = 0 ∧ e.winSize % 4 = 0 ∧ 4 ≤ e.winSize ∧ e.winBase + e.winSize ≤ lbusSize)

/-- Two windows share no offset (R8). -/
def Engine.disjoint (e f : Engine) : Bool :=
  decide (e.winBase + e.winSize ≤ f.winBase ∨ f.winBase + f.winSize ≤ e.winBase)

/-- "windows pairwise disjoint" (R8). -/
def windowsDisjoint : List Engine → Bool
  | [] => true
  | e :: es => es.all e.disjoint && windowsDisjoint es

/-- R8 on an engine list: `1 <= N <= 252`, windows well placed and pairwise disjoint. -/
def enginesOk (c : Config) (es : List Engine) : Bool :=
  decide (1 ≤ es.length ∧ es.length ≤ 252) && es.all (Engine.windowOk c.lbusSize) && windowsDisjoint es

/-- The constraints of R8. A configuration that does not meet them has no hub (R213). -/
def Config.wf (c : Config) : Bool :=
  c.identityOk && c.layout.ok
    && c.descriptorOk c.peekDescriptor && c.descriptorOk c.fsiDescriptor && c.descriptorOk c.scratchpadDescriptor
    && c.sizesOk && enginesOk c c.engines && decide (4 ∈ c.accessSizes)

/-- Engine `j` is a Scratchpad, and `r` is an aligned offset of its window (R89, R171). -/
def hitsScratchpad (es : List Engine) (j r : Nat) : Bool :=
  match es[j]? with
  | some ⟨.scratchpad, _, size⟩ => decide (r % 4 = 0 ∧ r < size)
  | _ => false

/-- Engine `j` is of another type, and `r` is an aligned offset of its window (R89, R156). -/
def hitsOther (es : List Engine) (j r : Nat) : Bool :=
  match es[j]? with
  | some ⟨.other _, _, size⟩ => decide (r % 4 = 0 ∧ r < size)
  | _ => false

/-- `o` is an aligned offset of the Secondary Bus region in no window (R61, R158). -/
def inHole (c : Config) (es : List Engine) (o : Nat) : Bool :=
  decide (o % 4 = 0 ∧ o < c.lbusSize) && decide (windowHit es o = none)

/-- The bytes are inside the space and all in `UNMAPPED`, and the width is admitted (R104, R57). -/
def inUnmapped (c : Config) (a size : Nat) : Bool :=
  decide (size ∈ c.accessSizes ∧ a + size ≤ cfamSize) && decide (region c a = .unmapped) && inOneRegion c a size

/-- The row's predicate of R89 holds: some transaction selects exactly this operation. -/
def Instr.wf (c : Config) (es : List Engine) : Instr → Bool
  | .cfgRdChipid => true
  | .cfgRdPeek => true
  | .cfgRdFsi => true
  | .cfgRdEngine k => decide (k < es.length ∧ k ≤ 252)
  | .cfgRdEnd => decide (es.length ≤ 252)
  | .cfgRdBreak k => decide (es.length < k ∧ k ≤ 252)
  | .cfgWrChipid _ => true
  | .cfgWrPeek _ => true
  | .cfgWrOther u _ => decide (2 ≤ u ∧ u < 256)
  | .slvRd o => decide (o % 4 = 0 ∧ o < c.slaveSize)
  | .slvWr o _ => decide (o % 4 = 0 ∧ o < c.slaveSize)
  | .scrRdData j => hitsScratchpad es j 0
  | .scrRdPad j r => hitsScratchpad es j r && decide (r ≠ 0)
  | .scrWrData j _ => hitsScratchpad es j 0
  | .scrWrPad j r _ => hitsScratchpad es j r && decide (r ≠ 0)
  | .lbusRdEng j r => hitsOther es j r
  | .lbusWrEng j r _ => hitsOther es j r
  | .lbusRdHole o => inHole c es o
  | .lbusWrHole o _ => inHole c es o
  | .unmRd a n => inUnmapped c a.toNat n
  | .unmWr a n _ => inUnmapped c a.toNat n

end Sys2Proof
end

