-- ==== Sys2Proof/Machine/Bus.lean ====
section
/-! DEFINITION. The Secondary Bus: the tuple `(ENGINES, inst)` of R20, the operations on the list (R151 to R153), and
the engine contract (R150). -/

namespace Sys2Proof

/-- `desc(t)`, the class-level descriptor word (R30, R150, R176). -/
def EngineType.desc (c : Config) : EngineType → Word
  | .scratchpad => c.scratchpadDescriptor
  | .other t => Config.otherDescriptor t

namespace Machine

/-- The instance state of one attached engine (R20, R28). A state of another type is held as a code (log 5). -/
inductive InstState where
  | scratchpad (value : Word)
  | other (code : Nat)
deriving DecidableEq, Repr

/-- `s_reset(t)` (R150); for a Scratchpad `reset()` sets `value = 0` (R174, R175). -/
def resetState : EngineType → InstState
  | .scratchpad => .scratchpad 0
  | .other t => .other (Config.otherReset t)

/-- "The complete state of the block is the tuple `(ENGINES, inst)`" (R20). -/
structure Bus where
  engines : List Engine
  inst    : List InstState
deriving DecidableEq, Repr

namespace Bus

/-- The bus before any engine is attached (R210: `ENGINES <- []`). -/
def empty : Bus := ⟨[], []⟩

/-- ATTACH (R151): append an engine in its reset state. Used only during construction. -/
def attach (b : Bus) (e : Engine) : Bus :=
  ⟨b.engines ++ [e], b.inst ++ [resetState e.type]⟩

/-- The attaches of POWER_ON (R210): the bootstrap Scratchpad first, then the further engines in order. -/
def construct (c : Config) : Bus := c.further.foldl attach (empty.attach c.bootstrap)

/-- ENUMERATE (R152): every engine with its slot address, in attach order. -/
def enumerate (b : Bus) : List (Nat × Engine) :=
  b.engines.zipIdx.map fun (e, j) => (slotAddr j, e)

/-- COLD_RESET (R153): every engine to its reset state; the list is not written. -/
def coldReset (b : Bus) : Bus := ⟨b.engines, b.engines.map fun e => resetState e.type⟩

/-- `x[j]`: the `value` of engine `j` when it is a Scratchpad (R26). -/
def scratch? (b : Bus) (j : Nat) : Option Word :=
  match b.inst[j]? with
  | some (.scratchpad v) => some v
  | _ => none

/-- The tag and the state of engine `j` when it is of another type (R28). -/
def other? (b : Bus) (j : Nat) : Option (Nat × Nat) :=
  match b.engines[j]?, b.inst[j]? with
  | some ⟨.other t, _, _⟩, some (.other code) => some (t, code)
  | _, _ => none

/-- `inst[j] <- s`. -/
def setInst (b : Bus) (j : Nat) (s : InstState) : Bus := ⟨b.engines, b.inst.set j s⟩

end Bus

end Machine

end Sys2Proof
end

