-- ==== Sys2Proof/Machine/Platform.lean ====
section
/-! DEFINITION. The configuration of the reset state: the parameters the platform supplies, about which nothing is
known but the constraints of R8. `meetR8` changes a value only where R8 forbids it, so every admissible value of every
parameter is one of the reset state's (Laws/Platform.lean), and no suggested value of R8 is used (logs 2, 3). -/

namespace Sys2Proof.Platform

/-- `CHIP_ID_BREAK != 0` (R8). -/
def chipIdBreak (w : Word) : Word := if w = 0 then 1 else w

/-- `CHIP_ID != CHIP_ID_BREAK` (R8). -/
def chipId (brk w : Word) : Word := if w = brk then w + 1 else w

/-- A layout of the five fields (R31, log 16); where the given one is none, each field a bit of its own. -/
def layout (l : DescLayout) : DescLayout := if l.ok then l else ⟨4, ⟨5, 5⟩, ⟨6, 6⟩, ⟨7, 7⟩⟩

/-- A descriptor constant has its continuation flag set (R8, R33). -/
def descriptor (l : DescLayout) (w : Word) : Word := w ||| (1#32 <<< l.continuation)

/-- `0 < W <= 0x400`, `W mod 4 = 0` (R8). -/
def slaveSize (w : Nat) : Nat := 4 * ((w / 4 - 1) % 0x100) + 4

/-- `SCRATCH_WIN >= 4`, `SCRATCH_WIN mod 4 = 0`, and no more than the greatest `X` (R8). -/
def scratchWin (n : Nat) : Nat := 4 * ((n / 4 - 1) % 0x7FD00) + 4

/-- `X mod 4 = 0`, `SCRATCH_WIN <= X`, `0xC00 + X <= 0x200000` (R8). -/
def lbusSize (win x : Nat) : Nat := 4 * (((x - win) / 4) % ((cfamSize - lbusBase - win) / 4 + 1)) + win

/-- The nearest configuration that meets R8 and attaches no engine but the bootstrap Scratchpad (R9, R211). -/
def meetR8 (c : Config) : Config :=
  { chipId               := chipId (chipIdBreak c.chipIdBreak) c.chipId
    chipIdBreak          := chipIdBreak c.chipIdBreak
    peekDescriptor       := descriptor (layout c.layout) c.peekDescriptor
    fsiDescriptor        := descriptor (layout c.layout) c.fsiDescriptor
    scratchpadDescriptor := descriptor (layout c.layout) c.scratchpadDescriptor
    slaveSize            := slaveSize c.slaveSize
    lbusSize             := lbusSize (scratchWin c.scratchWin) c.lbusSize
    scratchWin           := scratchWin c.scratchWin
    further              := []
    accessSizes          := 4 :: c.accessSizes
    layout               := layout c.layout }

/-- The reset state's configuration: a free default configuration (R9, logs 2 and 3). -/
def resetConfig : Config := meetR8 Config.supplied

end Sys2Proof.Platform
end

