-- ==== Sys2Proof/Decode.lean ====
section
/-! DEFINITION. The address decode (R89): from a host transaction to the one row it selects, or the reason it is
refused; the encoder, row by row; and the 24-bit command word of R81. -/

namespace Sys2Proof

/-- The configuration read rows of R89. -/
def selectCfgRead (es : List Engine) (a : Nat) : Instr :=
  if a = 0x000 then .cfgRdChipid
  else if a = 0x004 then .cfgRdPeek
  else if a = 0x008 then .cfgRdFsi
  else if slotIndex a < es.length then .cfgRdEngine (slotIndex a)
  else if slotIndex a = es.length then .cfgRdEnd
  else .cfgRdBreak (slotIndex a)

/-- The configuration write rows of R89, on the register unit (R84, R130). -/
def selectCfgWrite (a : Nat) (data : Word) : Instr :=
  match regUnit a with
  | 0 => .cfgWrChipid data
  | 1 => .cfgWrPeek data
  | u => .cfgWrOther u data

/-- The Secondary Bus read rows of R89, at region offset `o`. -/
def selectLbusRead (es : List Engine) (o : Nat) : Instr :=
  match windowHit es o with
  | none => .lbusRdHole o
  | some (j, ⟨.scratchpad, base, _⟩) => if o - base = 0 then .scrRdData j else .scrRdPad j (o - base)
  | some (j, ⟨.other _, base, _⟩) => .lbusRdEng j (o - base)

/-- The Secondary Bus write rows of R89, at region offset `o`. -/
def selectLbusWrite (es : List Engine) (o : Nat) (data : Word) : Instr :=
  match windowHit es o with
  | none => .lbusWrHole o data
  | some (j, ⟨.scratchpad, base, _⟩) => if o - base = 0 then .scrWrData j data else .scrWrPad j (o - base) data
  | some (j, ⟨.other _, base, _⟩) => .lbusWrEng j (o - base) data

/-- The row an admitted transaction selects (R89, R101). Outside `UNMAPPED` an admitted write carries 32 bits. -/
def select (c : Config) (es : List Engine) : Transaction → Instr
  | .rd a n =>
    match region c a.toNat with
    | .cfg => selectCfgRead es a.toNat
    | .slave => .slvRd (a.toNat - slaveBase)
    | .lbus => selectLbusRead es (a.toNat - lbusBase)
    | .unmapped => .unmRd a n
  | .wr a n d =>
    match region c a.toNat with
    | .cfg => selectCfgWrite a.toNat (d.setWidth 32)
    | .slave => .slvWr (a.toNat - slaveBase) (d.setWidth 32)
    | .lbus => selectLbusWrite es (a.toNat - lbusBase) (d.setWidth 32)
    | .unmapped => .unmWr a n d

/-- Decode a transaction in a configuration with engine list `es`: total, and refused by name (R101, R102). -/
def decode (c : Config) (es : List Engine) (t : Transaction) : Except Reject Instr :=
  match reject? c t with
  | some r => .error r
  | none => .ok (select c es t)

/-- The window base of engine `j`, 0 where there is none. -/
def winBaseAt (es : List Engine) (j : Nat) : Nat :=
  match es[j]? with
  | some e => e.winBase
  | none => 0

/-- `addr` of an offset `r` in engine `j`'s window (R86). -/
def windowAddr (es : List Engine) (j r : Nat) : Addr := BitVec.ofNat 21 (lbusBase + winBaseAt es j + r)

/-- The transaction that selects an operation, from the address conditions of R89. -/
def encode (es : List Engine) : Instr → Transaction
  | .cfgRdChipid => .rd4 0x000
  | .cfgRdPeek => .rd4 0x004
  | .cfgRdFsi => .rd4 0x008
  | .cfgRdEngine k => .rd4 (BitVec.ofNat 21 (slotAddr k))
  | .cfgRdEnd => .rd4 (BitVec.ofNat 21 (slotAddr es.length))
  | .cfgRdBreak k => .rd4 (BitVec.ofNat 21 (slotAddr k))
  | .cfgWrChipid d => .wr4 0x000 d
  | .cfgWrPeek d => .wr4 0x004 d
  | .cfgWrOther u d => .wr4 (BitVec.ofNat 21 (4 * u)) d
  | .slvRd o => .rd4 (BitVec.ofNat 21 (slaveBase + o))
  | .slvWr o d => .wr4 (BitVec.ofNat 21 (slaveBase + o)) d
  | .scrRdData j => .rd4 (windowAddr es j 0)
  | .scrRdPad j r => .rd4 (windowAddr es j r)
  | .scrWrData j d => .wr4 (windowAddr es j 0) d
  | .scrWrPad j r d => .wr4 (windowAddr es j r) d
  | .lbusRdEng j r => .rd4 (windowAddr es j r)
  | .lbusWrEng j r d => .wr4 (windowAddr es j r) d
  | .lbusRdHole o => .rd4 (BitVec.ofNat 21 (lbusBase + o))
  | .lbusWrHole o d => .wr4 (BitVec.ofNat 21 (lbusBase + o)) d
  | .unmRd a n => .rd a n
  | .unmWr a n d => .wr a n d

/-- The coding of the `sz` field, R81: `00` = 1 byte, `01` = 2, `10` = 4, `11` = 8. -/
def sizeOfCode (sz : BitVec 2) : Nat := 2 ^ sz.toNat

/-- The `sz` code of a width, none where R81 has no code for it. -/
def codeOfSize : Nat → Option (BitVec 2)
  | 1 => some 0
  | 2 => some 1
  | 4 => some 2
  | 8 => some 3
  | _ => none

/-- The transaction of a command word and the data carried beside it (R81): bit 23 `rw`, 22:21 `sz`, 20:0 `addr`. -/
def Transaction.ofCmd (cmd : BitVec 24) (data : Nat) : Transaction :=
  let a : Addr := cmd.extractLsb' 0 21
  let n := sizeOfCode (cmd.extractLsb' 21 2)
  if cmd.getLsbD 23 then .wr a n (BitVec.ofNat _ data) else .rd a n

/-- The command word of a transaction (R81), none for a width the `sz` field cannot say. -/
def Transaction.cmd? : Transaction → Option (BitVec 24)
  | .rd a n => (codeOfSize n).map fun sz => (0#1 ++ sz) ++ a
  | .wr a n _ => (codeOfSize n).map fun sz => (1#1 ++ sz) ++ a

/-- The data carried beside the command word (R81). -/
def Transaction.data : Transaction → Nat
  | .rd _ _ => 0
  | .wr _ _ d => d.toNat

/-- The transaction of a row of spec/opcode_table.json: bits 23:0 the command word, the write data above them
(log 14). -/
def Transaction.ofTableWord (nbits w : Nat) : Transaction :=
  .ofCmd (BitVec.ofNat 24 (w % 2 ^ nbits)) (w % 2 ^ nbits / 2 ^ 24)

/-- What the decoder reads from a table word in the reset state's configuration and engine list. -/
def decodeTableWord (nbits w : Nat) : Option Instr :=
  match decode Platform.resetConfig Platform.resetConfig.engines (.ofTableWord nbits w) with
  | .ok i => some i
  | .error _ => none

end Sys2Proof
end

