-- ==== Sys2Proof/Machine/State.lean ====
section
/-! DEFINITION. The machine's state, as plain data: the configuration (R8, R17), the block's own state
`(ENGINES, inst)` (R20), the host's transactions not yet taken (R23, R68), and the outputs (R13, R106, R200). -/

namespace Sys2Proof.Machine

/-- The state. `cfg` and `bus` are the spec's; the other fields are the model's own (logs 1, 4, 9, 10). -/
structure State where
  cfg      : Config
  bus      : Bus
  pending  : List Transaction
  reply    : Option Reply
  slaveLog : List SlaveAccess
  trace    : List TraceEvent
  draws    : Nat
deriving DecidableEq, Repr

/-- Why the machine stops with a fault: never. "There is no third outcome: no fault, no trap, no hang, no retry"
(R13); "No operation of the block raises a synchronous exception" (R185). So the type has no constructor. -/
inductive Fault
deriving DecidableEq, Repr

/-- Why a step gives no meaning. Safe: a claim may become unprovable, no false claim can be proved. -/
inductive Refusal where
  /-- An arm of `exec` without a meaning. No arm raises it: every row is modelled. Safe. -/
  | notModelled (mnemonic : String)
  /-- `step`: the transaction is outside the admitted interface (R14, R56, R57). Safe. -/
  | notAdmitted (reason : Reject)
  /-- A meaning whose operand names no engine of the kind its row needs: no decoded transaction does (R93: such a
  transaction would "select no row"). Safe. -/
  | noSuchEngine
deriving DecidableEq, Repr

/-- POWER_ON (R210, R41): the state construction leaves. The model's own fields start empty (log 12). -/
def State.powerOn (c : Config) : State :=
  { cfg := c, bus := Bus.construct c, pending := [], reply := none, slaveLog := [], trace := [], draws := 0 }

/-- Construction fails for a configuration that does not meet R8: no hub results (R187, R213). -/
def State.powerOn? (c : Config) : Option State := if c.wf then some (State.powerOn c) else none

/-- The machine right after reset: POWER_ON of the platform's configuration (R210, log 2). -/
def State.reset : State := State.powerOn Platform.resetConfig

end Sys2Proof.Machine
end

