-- ==== Sys2Proof/Machine/Ops.lean ====
section
/-! DEFINITION. The operations the meanings share: taking a transaction, completing one (R13), the diagnostic hook
(R200), delivering an access to the primary-slave component (R106, R107), the bus-reset trigger (R130). The block
takes no exception and returns from none (R185, R191, R192), so there is no operation for either. -/

namespace Sys2Proof.Machine

namespace State

/-- The diagnostic hook (R200): the event is appended to `trace` or not, as a free value says (log 9). -/
def offer (s : State) (ev : TraceEvent) : State :=
  { s with
    trace := if Config.emitsEvent s.draws ev then s.trace ++ [ev] else s.trace
    draws := s.draws + 1 }

/-- The event "every read/write may emit": address, size, and for writes data (R200, R201). -/
def accessEvent : Transaction → TraceEvent
  | .rd a n => .read a.toNat n
  | .wr a n d => .write a.toNat n d.toNat

/-- The block takes the host's next transaction `t`, leaving `rest` to be taken (R68). -/
def accept (s : State) (t : Transaction) (rest : List Transaction) : State :=
  { s with pending := rest }.offer (accessEvent t)

/-- The transaction completes with a reply (R13). -/
def finish (s : State) (r : Reply) : State := { s with reply := some r }

/-- A 4-byte read completes with the word `w` (R55). -/
def finishWord (s : State) (w : Word) : State := s.finish (.read 4 w)

/-- A write completes (R13). -/
def finishWrite (s : State) : State := s.finish .written

/-- An access reaches the primary-slave component (R106, R107). -/
def deliver (s : State) (a : SlaveAccess) : State := { s with slaveLog := s.slaveLog ++ [a] }

/-- `slave_read(o)` (R101, R106): the read is delivered, and completes with a draw: "an oracle answer of 32 bits,
under no law" (log 4). -/
def slaveRead (s : State) (o : Nat) : State :=
  { s.deliver (.read o) with draws := s.draws + 1 }.finishWord (Config.slaveAnswer s.draws s.slaveLog o)

/-- `slave_write(o, data)` (R101, R107): the write is delivered, "an effect on the external component only". -/
def slaveWrite (s : State) (o : Nat) (data : Word) : State := (s.deliver (.write o data)).finishWrite

/-- The bus-reset trigger (R130): `if data = CHIP_ID_BREAK then cold_reset()`. -/
def trigger (s : State) (data : Word) : State :=
  { s with bus := if data = s.cfg.chipIdBreak then s.bus.coldReset else s.bus }

/-- `inst[j] <- v`. -/
def setInst (s : State) (j : Nat) (v : InstState) : State := { s with bus := s.bus.setInst j v }

end State

/-- What the machine answers: always a next state or a refusal (R13). -/
abbrev Result := Host.Outcome State Fault Refusal

end Sys2Proof.Machine
end

