-- ==== Sys2Proof/Machine/AddressDecoder.lean ====
section
/-! DEFINITION. The router's own rows: unmapped space (R104, R105) and the primary-slave window (R106, R107). -/

namespace Sys2Proof.Machine

/-- UNM.RD, R104: `return zext_(8*size)(0)`, at every width and every alignment. -/
def execUnmRd (size : Nat) (s : State) : Result := .next (s.finish (.read size 0))

/-- UNM.WR, R105: nothing; "the write is accepted and dropped". -/
def execUnmWr (s : State) : Result := .next s.finishWrite

/-- SLV.RD, R106: `return slave_read(addr - 0x800)`. -/
def execSlvRd (o : Nat) (s : State) : Result := .next (s.slaveRead o)

/-- SLV.WR, R107: `slave_write(addr - 0x800, data)`. -/
def execSlvWr (o : Nat) (data : Word) (s : State) : Result := .next (s.slaveWrite o data)

end Sys2Proof.Machine
end

