-- ==== Sys2Proof/Machine/ConfigRegion.lean ====
section
/-! DEFINITION. The Configuration Region: its read function whole (R126), and the meanings of its nine rows (R120 to
R125, R131 to R133). -/

namespace Sys2Proof.Machine

/-- The walk of R126 from address `a` over the engines not yet passed. -/
def cfgWalk (c : Config) (addr : Nat) : Nat → List Engine → Word
  | a, [] => if a = addr then 0 else c.chipIdBreak
  | a, e :: es => if a = addr then e.type.desc c else cfgWalk c addr (a + enumStride) es

/-- `cfg_read(addr)`, R126, as the source's ordered cases. -/
def cfgRead (c : Config) (es : List Engine) (addr : Nat) : Word :=
  if addr = 0x00 then c.chipId
  else if addr = 0x04 then c.peekDescriptor
  else if addr = 0x08 then c.fsiDescriptor
  else cfgWalk c addr enumBase es

/-- CFG.RD.CHIPID, R120: `return CHIP_ID`. -/
def execCfgRdChipid (s : State) : Result := .next (s.finishWord s.cfg.chipId)

/-- CFG.RD.PEEK, R121: `return PEEK_DESCRIPTOR`. -/
def execCfgRdPeek (s : State) : Result := .next (s.finishWord s.cfg.peekDescriptor)

/-- CFG.RD.FSI, R122: `return FSI_DESCRIPTOR`. -/
def execCfgRdFsi (s : State) : Result := .next (s.finishWord s.cfg.fsiDescriptor)

/-- CFG.RD.ENGINE, R123: `return desc(ENGINES[k])`. -/
def execCfgRdEngine (k : Nat) (s : State) : Result :=
  match s.bus.engines[k]? with
  | some e => .next (s.finishWord (e.type.desc s.cfg))
  | none => .refused .noSuchEngine

/-- CFG.RD.END, R124: `return 0x00000000`, the end-of-table marker. -/
def execCfgRdEnd (s : State) : Result := .next (s.finishWord 0)

/-- CFG.RD.BREAK, R125: `return CHIP_ID_BREAK`, whatever the slot beyond the table; nothing else happens (R186). -/
def execCfgRdBreak (s : State) : Result := .next (s.finishWord s.cfg.chipIdBreak)

/-- CFG.WR.CHIPID, R131: `if data = CHIP_ID_BREAK then cold_reset()`. -/
def execCfgWrChipid (data : Word) (s : State) : Result := .next (s.trigger data).finishWrite

/-- CFG.WR.PEEK, R132: "Identical in effect to rule R131". -/
def execCfgWrPeek (data : Word) (s : State) : Result := .next (s.trigger data).finishWrite

/-- CFG.WR.OTHER, R133: nothing, but for one more diagnostic event that may be emitted (R201). -/
def execCfgWrOther (unit : Nat) (data : Word) (s : State) : Result :=
  .next (s.offer (.unrecognisedWrite (4 * unit) 4 data.toNat)).finishWrite

end Sys2Proof.Machine
end

