-- ==== Sys2Proof/Machine/Scratchpad.lean ====
section
/-! DEFINITION. The Scratchpad engine's rows (R170 to R173). Its reset is `resetState .scratchpad` (R174). -/

namespace Sys2Proof.Machine

/-- SCR.RD.DATA, R170: `return x[j]`. -/
def execScrRdData (j : Nat) (s : State) : Result :=
  match s.bus.scratch? j with
  | some v => .next (s.finishWord v)
  | none => .refused .noSuchEngine

/-- SCR.RD.PAD, R171: `return 0x00000000`, "whatever `x[j]` holds". -/
def execScrRdPad (s : State) : Result := .next (s.finishWord 0)

/-- SCR.WR.DATA, R172: `x[j] <- data`. -/
def execScrWrData (j : Nat) (data : Word) (s : State) : Result :=
  match s.bus.scratch? j with
  | some _ => .next (s.setInst j (.scratchpad data)).finishWrite
  | none => .refused .noSuchEngine

/-- SCR.WR.PAD, R173: nothing; "`x[j]` keeps its value". -/
def execScrWrPad (s : State) : Result := .next s.finishWrite

end Sys2Proof.Machine
end

