-- ==== Sys2Proof/Machine/SecondaryBus.lean ====
section
/-! DEFINITION. The Secondary Bus region's own rows: the window of an engine of another type (R156, R157) and the
holes (R158, R159). -/

namespace Sys2Proof.Machine

/-- LBUS.RD.ENG, R156: `(v, inst[j]) <- read_t(inst[j], r); return v`. -/
def execLbusRdEng (j r : Nat) (s : State) : Result :=
  match s.bus.other? j with
  | some (t, code) =>
    .next ((s.setInst j (.other (Config.otherRead t code r).2)).finishWord (Config.otherRead t code r).1)
  | none => .refused .noSuchEngine

/-- LBUS.WR.ENG, R157: `inst[j] <- write_t(inst[j], r, data)`. -/
def execLbusWrEng (j r : Nat) (data : Word) (s : State) : Result :=
  match s.bus.other? j with
  | some (t, code) => .next (s.setInst j (.other (Config.otherWrite t code r data))).finishWrite
  | none => .refused .noSuchEngine

/-- LBUS.RD.HOLE, R158: `return 0x00000000` (the spec's decision D11; log 8). -/
def execLbusRdHole (s : State) : Result := .next (s.finishWord 0)

/-- LBUS.WR.HOLE, R159: nothing (the spec's decision D11; log 8). -/
def execLbusWrHole (s : State) : Result := .next s.finishWrite

end Sys2Proof.Machine
end

