-- ==== Sys2Proof/Machine/Dispatch.lean ====
section
/-! DEFINITION. One arm per operation of R89. -/

namespace Sys2Proof.Machine

def exec (i : Instr) (s : State) : Host.Outcome State Fault Refusal :=
  match i with
  | .cfgRdChipid => Sys2Proof.Machine.execCfgRdChipid s
  | .cfgRdPeek => Sys2Proof.Machine.execCfgRdPeek s
  | .cfgRdFsi => Sys2Proof.Machine.execCfgRdFsi s
  | .cfgRdEngine k => Sys2Proof.Machine.execCfgRdEngine k s
  | .cfgRdEnd => Sys2Proof.Machine.execCfgRdEnd s
  | .cfgRdBreak _ => Sys2Proof.Machine.execCfgRdBreak s
  | .cfgWrChipid data => Sys2Proof.Machine.execCfgWrChipid data s
  | .cfgWrPeek data => Sys2Proof.Machine.execCfgWrPeek data s
  | .cfgWrOther unit data => Sys2Proof.Machine.execCfgWrOther unit data s
  | .slvRd o => Sys2Proof.Machine.execSlvRd o s
  | .slvWr o data => Sys2Proof.Machine.execSlvWr o data s
  | .scrRdData j => Sys2Proof.Machine.execScrRdData j s
  | .scrRdPad _ _ => Sys2Proof.Machine.execScrRdPad s
  | .scrWrData j data => Sys2Proof.Machine.execScrWrData j data s
  | .scrWrPad _ _ _ => Sys2Proof.Machine.execScrWrPad s
  | .lbusRdEng j r => Sys2Proof.Machine.execLbusRdEng j r s
  | .lbusWrEng j r data => Sys2Proof.Machine.execLbusWrEng j r data s
  | .lbusRdHole _ => Sys2Proof.Machine.execLbusRdHole s
  | .lbusWrHole _ _ => Sys2Proof.Machine.execLbusWrHole s
  | .unmRd _ size => Sys2Proof.Machine.execUnmRd size s
  | .unmWr _ _ _ => Sys2Proof.Machine.execUnmWr s

end Sys2Proof.Machine
end

