-- ==== Sys2Proof/Machine/Step.lean ====
section
/-! DEFINITION. One step: the block takes the host's next transaction, decodes it and runs it (R101). -/

namespace Sys2Proof.Machine

/-- One step. With no transaction pending nothing happens (R15, R188; log 1). A transaction outside the admitted
interface is refused (R14). Otherwise the block takes it and runs the row it selects (R89, R101). -/
def step (s : State) : Host.Outcome State Fault Refusal :=
  match s.pending with
  | [] => .next s
  | t :: rest =>
    match decode s.cfg s.bus.engines t with
    | .error r => .refused (.notAdmitted r)
    | .ok i => exec i (s.accept t rest)

/-- The host issues the transaction of a table word next (log 1, log 14). -/
def State.withFetchWord (s : State) (nbits w : Nat) : State :=
  { s with pending := .ofTableWord nbits w :: s.pending }

end Sys2Proof.Machine
end

