-- ==== Sys2Proof/Machine/Script.lean ====
section
/-! DEFINITION. The two abbreviations of the host's script notation (R95). `RD<n> a` and `WR<n> a, d` of R94 are
`Transaction.rd a n` and `Transaction.wr a n d`. The step does not use this file. -/

namespace Sys2Proof.Machine

/-- `BREAK_RESET` of R95: `WR4 0x000, CHIP_ID_BREAK`. -/
def breakReset (c : Config) : Transaction := .wr4 0x000 c.chipIdBreak

/-- The tail of `SCAN` of R95: `RD4 0x00C + 4k` for `k`, `k + 1`, ... up to and including the first read that returns
0, at most `fuel` reads. It answers how many slots read non-zero before that, and the state then. -/
def scanSlots : Nat → Nat → State → Option (Nat × State)
  | 0, _, _ => none
  | fuel + 1, k, s =>
    match step ({ s with pending := .rd4 (BitVec.ofNat 21 (slotAddr k)) :: s.pending }) with
    | .next s' => if s'.reply = some (.read 4 0) then some (k, s') else scanSlots fuel (k + 1) s'
    | _ => none

end Sys2Proof.Machine
end

