-- ==== Sys2Proof/Machine/View.lean ====
section
/-! DEFINITION. The address space as a host sees it in a state (R35, R37, R38, R50, R60), one word or one byte at a
time. It is how claims say that every byte elsewhere reads as before; the step does not use it. -/

namespace Sys2Proof.Machine

/-- The word at Secondary Bus offset `o` (R155). -/
def Bus.wordAt (b : Bus) (o : Nat) : Option Word :=
  match windowHit b.engines o with
  | none => some 0
  | some (j, ⟨.scratchpad, base, _⟩) => if o - base = 0 then b.scratch? j else some 0
  | some (j, ⟨.other _, base, _⟩) => (b.other? j).map fun e => (Config.otherRead e.1 e.2 (o - base)).1

/-- The word a 4-byte read at the aligned offset `a` would return in this state; none in the primary-slave window,
whose answers are not the block's (R40, R106). -/
def State.wordAt (s : State) (a : Nat) : Option Word :=
  match region s.cfg a with
  | .cfg => some (cfgRead s.cfg s.bus.engines a)
  | .slave => none
  | .lbus => s.bus.wordAt (a - lbusBase)
  | .unmapped => some 0

/-- The byte at offset `a`: the big-endian lane of the aligned word that holds it (R53, R54). -/
def State.byteAt (s : State) (a : Nat) : Option Byte := (s.wordAt (a - a % 4)).map (lane · (a % 4))

end Sys2Proof.Machine
end

