-- ==== Sys2Proof/Safety.lean ====
section
/-! DEFINITION. The invariant of a hub after construction (R154, R20), and what a host may issue without a refusal. -/

namespace Sys2Proof.Machine

/-- The instance state is one the engine's type can have (R28, R150). -/
def instOk (e : Engine) (i : InstState) : Prop :=
  match e.type, i with
  | .scratchpad, .scratchpad _ => True
  | .other _, .other _ => True
  | _, _ => False

/-- "Invariants of the list, at every moment after construction" (R154): the configuration meets R8, the engine list
is the configured one, and every engine has an instance state of its type. -/
structure State.Inv (s : State) : Prop where
  cfgOk   : s.cfg.wf = true
  engines : s.bus.engines = s.cfg.engines
  inst    : List.Forall₂ instOk s.bus.engines s.bus.inst

/-- Every transaction the host has issued is inside the admitted interface (R102). -/
def State.Ready (s : State) : Prop := ∀ t ∈ s.pending, reject? s.cfg t = none

/-- The host issues `t` next, before what was pending. -/
def State.issue (s : State) (t : Transaction) : State := { s with pending := t :: s.pending }

end Sys2Proof.Machine
end

