-- ==== Sys2Proof/Certificates/Slice0/Obligations.lean ====
section
/-! DEFINITION. The statements for the provers. `s.issue t` is the state in which the host issues `t` next; `rd4` and
`wr4` are `RD4` and `WR4` of R94; `windowAddr es j r` is the CFAM offset of offset `r` in engine `j`'s window. -/

open Sys2Proof Sys2Proof.Machine

/-! Encoding and decoding -/

/-- R89 (selection of every row): the transaction written for a row is decoded to that row, with every operand. -/
def Obligations.DecodeOfEncode : Prop :=
  ∀ (c : Config) (es : List Engine) (i : Instr), c.sizesOk = true → enginesOk c es = true → 4 ∈ c.accessSizes →
    i.wf c es = true → decode c es (encode es i) = .ok i

/-- R89 ("pairwise disjoint and together cover every admitted transaction"): the row decoded from a transaction meets
its own condition, and that row's transaction is the one decoded. -/
def Obligations.EncodeOfDecode : Prop :=
  ∀ (c : Config) (es : List Engine) (t : Transaction) (i : Instr), c.sizesOk = true → enginesOk c es = true →
    decode c es t = .ok i → i.wf c es = true ∧ encode es i = t

/-- R81: the fields of the command word, the two numbers the rule prints, and no bit dropped either way. -/
def Obligations.CommandWordFields : Prop :=
  (∀ (cmd : BitVec 24) (data : Nat),
    (Transaction.ofCmd cmd data).cmd? = some cmd
      ∧ (Transaction.ofCmd cmd data).addr = cmd.extractLsb' 0 21
      ∧ (Transaction.ofCmd cmd data).size =
          (if cmd.extractLsb' 21 2 = 0b00#2 then 1 else if cmd.extractLsb' 21 2 = 0b01#2 then 2
           else if cmd.extractLsb' 21 2 = 0b10#2 then 4 else 8)
      ∧ ((∃ a n d, Transaction.ofCmd cmd data = .wr a n d) ↔ cmd.getLsbD 23 = true))
  ∧ (∀ a : Addr, (Transaction.rd4 a).cmd? = some (0x400000#24 + a.setWidth 24))
  ∧ (∀ (a : Addr) (w : Word), (Transaction.wr4 a w).cmd? = some (0xC00000#24 + a.setWidth 24))
  ∧ (∀ t : Transaction, (∃ cmd, t.cmd? = some cmd) ↔ t.size = 1 ∨ t.size = 2 ∨ t.size = 4 ∨ t.size = 8)
  ∧ (∀ (t : Transaction) (cmd : BitVec 24), t.cmd? = some cmd → Transaction.ofCmd cmd t.data = t)

/-- R102. -/
def Obligations.AdmittedExactlyWhen : Prop :=
  ∀ (c : Config) (es : List Engine) (t : Transaction), (∃ i, decode c es t = .ok i) ↔
    t.size ∈ c.accessSizes ∧ t.addr.toNat + t.size ≤ 0x200000
      ∧ (∀ n < t.size, region c (t.addr.toNat + n) = region c t.addr.toNat)
      ∧ (region c t.addr.toNat ≠ .unmapped → t.size = 4 ∧ t.addr.toNat % 4 = 0)

/-- R56: a transaction whose first byte lies in a mapped region, of a width other than 4 or misaligned, is refused. -/
def Obligations.MappedWidthOrAlignmentRefused : Prop :=
  ∀ (s : State) (t : Transaction), region s.cfg t.addr.toNat ≠ .unmapped → (t.size ≠ 4 ∨ t.addr.toNat % 4 ≠ 0) →
    ∃ r, step (s.issue t) = .refused (.notAdmitted r)

/-- R57, its three cases; and that with R55's shape in a mapped region case (c) cannot arise. -/
def Obligations.OutsideInterfaceRefused : Prop :=
  ∀ (s : State) (t : Transaction),
    (t.size ∉ s.cfg.accessSizes → ∃ r, step (s.issue t) = .refused (.notAdmitted r))
    ∧ (0x200000 < t.addr.toNat + t.size → ∃ r, step (s.issue t) = .refused (.notAdmitted r))
    ∧ ((∃ n < t.size, region s.cfg (t.addr.toNat + n) ≠ region s.cfg t.addr.toNat) →
        ∃ r, step (s.issue t) = .refused (.notAdmitted r))
    ∧ (s.cfg.sizesOk = true → region s.cfg t.addr.toNat ≠ .unmapped → t.size = 4 → t.addr.toNat % 4 = 0 →
        ∀ n < t.size, region s.cfg (t.addr.toNat + n) = region s.cfg t.addr.toNat)

/-- R81, R89: command words written out from the rules' text decode to their rows, with the data carried beside them, in
every default configuration (R9); and the table words of the reset state, whose write data is 0 by the model's choice
(log 14), decode to the same rows. -/
def Obligations.TableWordsDecode : Prop :=
  (∀ (c : Config) (d : Word), c.wf = true → c.further = [] →
    decode c c.engines (.ofCmd 0x400000 0) = .ok .cfgRdChipid ∧ decode c c.engines (.ofCmd 0x400004 0) = .ok .cfgRdPeek
    ∧ decode c c.engines (.ofCmd 0x400008 0) = .ok .cfgRdFsi
    ∧ decode c c.engines (.ofCmd 0x40000C 0) = .ok (.cfgRdEngine 0)
    ∧ decode c c.engines (.ofCmd 0x400010 0) = .ok .cfgRdEnd
    ∧ decode c c.engines (.ofCmd 0x4003FC 0) = .ok (.cfgRdBreak 252)
    ∧ decode c c.engines (.ofCmd 0xC00000 d.toNat) = .ok (.cfgWrChipid d)
    ∧ decode c c.engines (.ofCmd 0xC00004 d.toNat) = .ok (.cfgWrPeek d)
    ∧ decode c c.engines (.ofCmd 0xC00008 d.toNat) = .ok (.cfgWrOther 2 d)
    ∧ decode c c.engines (.ofCmd 0x400800 0) = .ok (.slvRd 0)
    ∧ decode c c.engines (.ofCmd 0xC00800 d.toNat) = .ok (.slvWr 0 d)
    ∧ decode c c.engines (.ofCmd 0x400C00 0) = .ok (.scrRdData 0)
    ∧ decode c c.engines (.ofCmd 0xC00C00 d.toNat) = .ok (.scrWrData 0 d)
    ∧ (4 < c.scratchWin → decode c c.engines (.ofCmd 0x400C04 0) = .ok (.scrRdPad 0 4)
        ∧ decode c c.engines (.ofCmd 0xC00C04 d.toNat) = .ok (.scrWrPad 0 4 d))
    ∧ (c.scratchWin = 0x400 → 0x400 < c.lbusSize → decode c c.engines (.ofCmd 0x401000 0) = .ok (.lbusRdHole 0x400)
        ∧ decode c c.engines (.ofCmd 0xC01000 d.toNat) = .ok (.lbusWrHole 0x400 d))
    ∧ (2 ∈ c.accessSizes → decode c c.engines (.ofCmd 0x2007FE 0) = .ok (.unmRd 0x7FE 2))
    ∧ decode c c.engines (.ofCmd 0xC00400 d.toNat) = .ok (.unmWr 0x400 4 d)
    ∧ (∃ r, decode c c.engines (.ofCmd 0x4007FD 0) = .error r) ∧ ∃ r, decode c c.engines (.ofCmd 0x000000 0) = .error r)
  ∧ decodeTableWord 24 0x400000 = some .cfgRdChipid ∧ decodeTableWord 24 0x40000C = some (.cfgRdEngine 0)
  ∧ decodeTableWord 24 0x400010 = some .cfgRdEnd ∧ decodeTableWord 24 0x4003FC = some (.cfgRdBreak 252)
  ∧ decodeTableWord 24 0xC00004 = some (.cfgWrPeek 0) ∧ decodeTableWord 24 0xC00008 = some (.cfgWrOther 2 0)
  ∧ decodeTableWord 24 0x400800 = some (.slvRd 0) ∧ decodeTableWord 24 0x400C00 = some (.scrRdData 0)
  ∧ decodeTableWord 24 0xC00C00 = some (.scrWrData 0 0) ∧ decodeTableWord 24 0x400400 = some (.unmRd 0x400 4)
  ∧ decodeTableWord 24 0x4007FD = none

/-! The step -/

/-- R101: a step runs the row its transaction decodes to, on the state in which the block has taken the transaction:
nothing of the block's own state is written by taking it, and at most one event is appended (R200). -/
def Obligations.StepRunsDecodedRow : Prop :=
  ∀ (s : State) (t : Transaction) (rest : List Transaction) (i : Instr), s.pending = t :: rest →
    decode s.cfg s.bus.engines t = .ok i →
    ∃ u, step s = exec i u ∧ u.cfg = s.cfg ∧ u.bus = s.bus ∧ u.pending = rest ∧ u.reply = s.reply
      ∧ u.slaveLog = s.slaveLog ∧ u.draws = s.draws + 1
      ∧ (u.trace = s.trace ∨ u.trace = s.trace ++ [State.accessEvent t])

/-- The model's choice (log 1): with no transaction issued, nothing happens (R15, R188). -/
def Obligations.IdleStepChangesNothing : Prop :=
  ∀ s : State, s.pending = [] → step s = .next s

/-- R13: in every hub, a transaction completes, a read with a value of its own width and a write with none, exactly
when it is admitted (R102, as AdmittedExactlyWhen says it); every other one is refused. -/
def Obligations.TwoOutcomesOnly : Prop :=
  ∀ (s : State) (t : Transaction) (rest : List Transaction), s.Inv → s.pending = t :: rest →
    (reject? s.cfg t = none → ∃ s', step s = .next s' ∧
      match t with
      | .rd _ n => ∃ v : BitVec (8 * n), s'.reply = some (.read n v)
      | .wr _ _ _ => s'.reply = some .written)
    ∧ ∀ r, reject? s.cfg t = some r → step s = .refused (.notAdmitted r)

/-- R68 (1): transactions take effect in the order issued, one a step. -/
def Obligations.TransactionsTakenInOrder : Prop :=
  ∀ s s' : State, step s = .next s' → s'.pending = s.pending.tail

/-! The invariant -/

/-- R154: every step keeps the invariant of the hub. -/
def Obligations.EveryStepKeepsInvariant : Prop :=
  ∀ s s' : State, s.Inv → step s = .next s' → s'.Inv

/-- R154, R210: construction from any configuration that meets R8 makes a hub that meets the invariant; the reset
state's configuration, free but for R8 (logs 2, 3), is one. -/
def Obligations.ConstructionMeetsInvariant : Prop :=
  (∀ c : Config, c.wf = true → (State.powerOn c).Inv) ∧ State.reset.Inv

/-- R13, R154: from a hub, a host that stays inside the admitted interface is never stopped: every run of any length
goes on, and the hub, its configuration and its engine list stay. -/
def Obligations.AdmittedRunNeverStops : Prop :=
  ∀ (n : Nat) (s : State), s.Inv → s.Ready →
    ∃ s', Host.Core.run core n s = .next s' ∧ s'.Inv ∧ s'.Ready ∧ s'.cfg = s.cfg ∧ s'.bus.engines = s.bus.engines
      ∧ s'.pending = s.pending.drop n

/-- R160, R20: no step removes, adds or changes an engine of the list, nor any parameter. -/
def Obligations.NoStepChangesTheEngineList : Prop :=
  ∀ s s' : State, step s = .next s' → s'.bus.engines = s.bus.engines ∧ s'.cfg = s.cfg

/-- Every row that some transaction selects completes, in every state of a hub (R13). -/
def Obligations.SelectedRowCompletes : Prop :=
  ∀ (s : State) (i : Instr), s.Inv → i.wf s.cfg s.bus.engines = true → ∃ s', exec i s = .next s'

/-! Results of the rows, with all they leave unchanged -/

/-- The constant configuration reads (R120, R121, R122, R124, R125): the word returned, and nothing else changes. -/
def Obligations.ConstantConfigReadResults : Prop :=
  ∀ (s : State) (k : Nat),
    exec .cfgRdChipid s = .next { s with reply := some (.read 4 s.cfg.chipId) }
    ∧ exec .cfgRdPeek s = .next { s with reply := some (.read 4 s.cfg.peekDescriptor) }
    ∧ exec .cfgRdFsi s = .next { s with reply := some (.read 4 s.cfg.fsiDescriptor) }
    ∧ exec .cfgRdEnd s = .next { s with reply := some (.read 4 0) }
    ∧ exec (.cfgRdBreak k) s = .next { s with reply := some (.read 4 s.cfg.chipIdBreak) }

/-- CFG.RD.ENGINE (R123): the descriptor of the engine's type; a slot with no engine is no selection of this row. -/
def Obligations.EngineDescriptorReadResult : Prop :=
  ∀ (s : State) (k : Nat),
    (∀ e, s.bus.engines[k]? = some e →
      exec (.cfgRdEngine k) s = .next { s with reply := some (.read 4 (e.type.desc s.cfg)) })
    ∧ (s.bus.engines[k]? = none → exec (.cfgRdEngine k) s = .refused .noSuchEngine)

/-- CFG.WR.CHIPID and CFG.WR.PEEK (R131, R132): a cold reset on the sentinel, nothing on any other word. -/
def Obligations.TriggerWriteResults : Prop :=
  ∀ (s : State) (d : Word), exec (.cfgWrPeek d) s = exec (.cfgWrChipid d) s
    ∧ (d = s.cfg.chipIdBreak →
        exec (.cfgWrChipid d) s = .next { s with bus := s.bus.coldReset, reply := some .written })
    ∧ (d ≠ s.cfg.chipIdBreak → exec (.cfgWrChipid d) s = .next { s with reply := some .written })

/-- CFG.WR.OTHER (R133): nothing, whatever the data, but for one event that may be emitted (R201). -/
def Obligations.OtherConfigWriteResult : Prop :=
  ∀ (s : State) (u : Nat) (d : Word), ∃ tr, (tr = s.trace ∨ tr = s.trace ++ [.unrecognisedWrite (4 * u) 4 d.toNat])
    ∧ exec (.cfgWrOther u d) s = .next { s with trace := tr, draws := s.draws + 1, reply := some .written }

/-- SLV.RD and SLV.WR (R106, R107): the access is delivered; a read returns some word, on which nothing is stated;
nothing of `(ENGINES, inst)` changes, even when the data is the sentinel. -/
def Obligations.SlaveWindowResults : Prop :=
  ∀ (s : State) (o : Nat) (d : Word),
    (∃ v : Word, exec (.slvRd o) s = .next
      { s with slaveLog := s.slaveLog ++ [.read o], draws := s.draws + 1, reply := some (.read 4 v) })
    ∧ exec (.slvWr o d) s = .next { s with slaveLog := s.slaveLog ++ [.write o d], reply := some .written }

/-- SCR.RD.DATA, SCR.WR.DATA (R170, R172): the register is returned, or written and nothing else; where engine `j` has
no Scratchpad state the operand names no register and the row refuses. -/
def Obligations.ScratchpadDataResults : Prop :=
  ∀ (s : State) (j : Nat) (d : Word),
    (∀ v, s.bus.inst[j]? = some (.scratchpad v) →
      exec (.scrRdData j) s = .next { s with reply := some (.read 4 v) }
      ∧ exec (.scrWrData j d) s = .next
          { s with bus := ⟨s.bus.engines, s.bus.inst.set j (.scratchpad d)⟩, reply := some .written })
    ∧ ((∀ v, s.bus.inst[j]? ≠ some (.scratchpad v)) →
      exec (.scrRdData j) s = .refused .noSuchEngine ∧ exec (.scrWrData j d) s = .refused .noSuchEngine)

/-- SCR.RD.PAD, SCR.WR.PAD, LBUS.RD.HOLE, LBUS.WR.HOLE, UNM.RD, UNM.WR (R171, R173, R158, R159, R104, R105): where no
register is, a read gives zero of its width, a write is dropped, and nothing else changes. -/
def Obligations.NoRegisterResults : Prop :=
  ∀ (s : State) (j r o : Nat) (d : Word) (a : Addr) (n : Nat) (x : BitVec (8 * n)),
    exec (.scrRdPad j r) s = .next { s with reply := some (.read 4 0) }
    ∧ exec (.scrWrPad j r d) s = .next { s with reply := some .written }
    ∧ exec (.lbusRdHole o) s = .next { s with reply := some (.read 4 0) }
    ∧ exec (.lbusWrHole o d) s = .next { s with reply := some .written }
    ∧ exec (.unmRd a n) s = .next { s with reply := some (.read n 0) }
    ∧ exec (.unmWr a n x) s = .next { s with reply := some .written }

/-- LBUS.RD.ENG, LBUS.WR.ENG (R156, R157): the engine's own read or write, on its own state only. -/
def Obligations.OtherEngineResults : Prop :=
  ∀ (s : State) (j r t code : Nat) (e : Engine) (d : Word), s.bus.engines[j]? = some e → e.type = .other t →
    s.bus.inst[j]? = some (.other code) →
    exec (.lbusRdEng j r) s = .next
      { s with bus := ⟨s.bus.engines, s.bus.inst.set j (.other (Config.otherRead t code r).2)⟩
               reply := some (.read 4 (Config.otherRead t code r).1) }
    ∧ exec (.lbusWrEng j r d) s = .next
      { s with bus := ⟨s.bus.engines, s.bus.inst.set j (.other (Config.otherWrite t code r d))⟩
               reply := some .written }

/-- The frame of the rows that store nothing: every row but the two triggers, SCR.WR.DATA and the rows of engines of
another type leaves the configuration, `(ENGINES, inst)` and every byte of the space as they were (R65, R66). -/
def Obligations.RowsThatStoreNothing : Prop :=
  ∀ (i : Instr) (s s' : State), exec i s = .next s' →
    (∀ d, i ≠ .cfgWrChipid d) → (∀ d, i ≠ .cfgWrPeek d) → (∀ j d, i ≠ .scrWrData j d) →
    (∀ j r, i ≠ .lbusRdEng j r) → (∀ j r d, i ≠ .lbusWrEng j r d) →
    s'.cfg = s.cfg ∧ s'.bus = s.bus ∧ s'.pending = s.pending ∧ ∀ b, s'.byteAt b = s.byteAt b

/-! The Configuration Region -/

/-- R126: an aligned read in the region returns what the walk gives, and the closed form says which word that is. -/
def Obligations.ConfigReadIsTheWalk : Prop :=
  ∀ (s : State) (a : Addr), s.cfg.wf = true → a.toNat < 0x400 → a.toNat % 4 = 0 →
    (∃ s', step (s.issue (.rd4 a)) = .next s' ∧ s'.bus = s.bus
      ∧ s'.reply = some (.read 4 (cfgRead s.cfg s.bus.engines a.toNat)))
    ∧ (a.toNat = 0x00 → cfgRead s.cfg s.bus.engines a.toNat = s.cfg.chipId)
    ∧ (a.toNat = 0x04 → cfgRead s.cfg s.bus.engines a.toNat = s.cfg.peekDescriptor)
    ∧ (a.toNat = 0x08 → cfgRead s.cfg s.bus.engines a.toNat = s.cfg.fsiDescriptor)
    ∧ (0x0C ≤ a.toNat →
        (∀ e, s.bus.engines[(a.toNat - 0x0C) / 4]? = some e →
          cfgRead s.cfg s.bus.engines a.toNat = e.type.desc s.cfg)
        ∧ ((a.toNat - 0x0C) / 4 = s.bus.engines.length → cfgRead s.cfg s.bus.engines a.toNat = 0)
        ∧ (s.bus.engines.length < (a.toNat - 0x0C) / 4 →
            cfgRead s.cfg s.bus.engines a.toNat = s.cfg.chipIdBreak))

/-- R127: exactly one address of the table reads 0, and every address after it reads the sentinel. That descriptors of
types other than Scratchpad are non-zero is a hypothesis (R124 calls every descriptor non-zero; log 5). -/
def Obligations.OneEndMarkerThenSentinel : Prop :=
  ∀ (s : State) (a : Addr), s.cfg.wf = true → (∀ e ∈ s.bus.engines, e.type.desc s.cfg ≠ 0) → a.toNat < 0x400 →
    a.toNat % 4 = 0 → ∃ s' w, step (s.issue (.rd4 a)) = .next s' ∧ s'.reply = some (.read 4 w)
      ∧ (0x0C ≤ a.toNat → (w = 0 ↔ a.toNat = 0x0C + 4 * s.bus.engines.length))
      ∧ (0x0C + 4 * s.bus.engines.length < a.toNat → w = s.cfg.chipIdBreak)

/-- R130: an aligned write in the region resets the bus exactly at register units 0 and 1 with the sentinel as data;
every other one changes nothing; neither changes what the region reads. -/
def Obligations.ConfigWriteTriggersOnlyOnSentinel : Prop :=
  ∀ (s : State) (a : Addr) (d : Word), s.cfg.wf = true → a.toNat < 0x400 → a.toNat % 4 = 0 →
    ∃ s', step (s.issue (.wr4 a d)) = .next s' ∧ s'.reply = some .written ∧ s'.cfg = s.cfg
      ∧ s'.bus = (if (a.toNat / 4 = 0 ∨ a.toNat / 4 = 1) ∧ d = s.cfg.chipIdBreak then s.bus.coldReset else s.bus)
      ∧ s'.slaveLog = s.slaveLog ∧ ∀ b < 0x400, s'.wordAt b = s.wordAt b

/-- R36, R35: over any run, no transaction changes a word of the Configuration Region. -/
def Obligations.ConfigurationWordsNeverChange : Prop :=
  ∀ (n : Nat) (s s' : State), Host.Core.run core n s = .next s' →
    ∀ a < 0x400, s'.wordAt a = s.wordAt a ∧ s'.wordAt a = some (cfgRead s.cfg s.bus.engines a)

/-- R123: a descriptor read depends on the engine's type alone: two slots with engines of one type return one word, in
two states with the same configuration and the same list, whatever the engines' own states hold. -/
def Obligations.DescriptorReadDependsOnTypeAlone : Prop :=
  ∀ (s t : State) (k m : Nat) (e f : Engine), s.cfg.wf = true → t.cfg = s.cfg → t.bus.engines = s.bus.engines →
    s.bus.engines[k]? = some e → s.bus.engines[m]? = some f → e.type = f.type → k ≤ 252 → m ≤ 252 →
    ∃ s' t', step (s.issue (.rd4 (BitVec.ofNat 21 (slotAddr k)))) = .next s'
      ∧ step (t.issue (.rd4 (BitVec.ofNat 21 (slotAddr m)))) = .next t' ∧ s'.reply = t'.reply
      ∧ s'.reply = some (.read 4 (e.type.desc s.cfg))

/-- R32, R33: the continuation flag reads set in the words of the two pseudo-engines and in the slot of every attached
Scratchpad, the last engine of the table too, wherever the layout puts the flag. -/
def Obligations.DescriptorsKeepTheContinuationFlag : Prop :=
  ∀ (s : State) (a : Addr), s.Inv →
    (a = 0x004 ∨ a = 0x008 ∨ ∃ (k : Nat) (e : Engine), s.bus.engines[k]? = some e ∧ e.type = .scratchpad
      ∧ a = BitVec.ofNat 21 (slotAddr k)) →
    ∃ s' w, step (s.issue (.rd4 a)) = .next s' ∧ s'.reply = some (.read 4 w) ∧ w ≠ 0
      ∧ s.cfg.layout.continues w = true

/-- R95, R223: a host that reads the slots from the first one up to the first zero reads at most 253 of them, finds
every attached engine, and changes nothing of the hub. -/
def Obligations.ScanFindsEveryEngine : Prop :=
  ∀ s : State, s.Inv → (∀ e ∈ s.bus.engines, e.type.desc s.cfg ≠ 0) →
    ∃ s', scanSlots 253 0 s = some (s.bus.engines.length, s') ∧ s'.bus = s.bus ∧ s'.cfg = s.cfg

/-! The Secondary Bus -/

/-- R152: the slots, in attach order, four bytes apart from 0x0C, whatever the engines' states. -/
def Obligations.EnumerateGivesSlotsInOrder : Prop :=
  ∀ b : Bus, b.enumerate.length = b.engines.length
    ∧ (∀ (j : Nat) (e : Engine), b.engines[j]? = some e → b.enumerate[j]? = some (0x0C + 4 * j, e))
    ∧ b.coldReset.enumerate = b.enumerate ∧ ∀ j i, (b.setInst j i).enumerate = b.enumerate

/-- R151: an attach appends the engine, in its reset state, at the next slot, and moves no earlier slot. -/
def Obligations.AttachAppendsOneSlot : Prop :=
  ∀ (b : Bus) (e : Engine), (b.attach e).engines = b.engines ++ [e]
    ∧ (b.attach e).inst = b.inst ++ [resetState e.type]
    ∧ (b.attach e).enumerate = b.enumerate ++ [(0x0C + 4 * b.engines.length, e)]

/-- R86: windows are disjoint, so at most one engine is hit, and the hit is the engine whose window holds the
offset. -/
def Obligations.AtMostOneEngineHit : Prop :=
  ∀ (c : Config) (es : List Engine) (o j k : Nat) (e f : Engine), enginesOk c es = true → es[j]? = some e →
    es[k]? = some f → (e.winBase ≤ o ∧ o < e.winBase + e.winSize) → (f.winBase ≤ o ∧ o < f.winBase + f.winSize) →
    j = k ∧ windowHit es o = some (j, e)

/-- R155: the region's two functions, for a Scratchpad, for an engine of another type, and in a hole. That a hole reads
zero and drops writes is a choice in the spec's words and the model's: the spec's decision D11, in whose place a model may
refuse (R158, R159; log 8). -/
def Obligations.SecondaryBusDispatch : Prop :=
  ∀ (s : State) (a : Addr) (d : Word), s.Inv → a.toNat % 4 = 0 → 0xC00 ≤ a.toNat →
    a.toNat < 0xC00 + s.cfg.lbusSize →
    (∀ (j : Nat) (e : Engine), s.bus.engines[j]? = some e →
      e.winBase ≤ a.toNat - 0xC00 → a.toNat - 0xC00 < e.winBase + e.winSize →
      (e.type = .scratchpad → ∃ v s' t', s.bus.inst[j]? = some (.scratchpad v)
        ∧ step (s.issue (.rd4 a)) = .next s' ∧ s'.bus = s.bus
        ∧ s'.reply = some (.read 4 (if a.toNat - 0xC00 - e.winBase = 0 then v else 0))
        ∧ step (s.issue (.wr4 a d)) = .next t' ∧ t'.reply = some .written
        ∧ t'.bus = if a.toNat - 0xC00 - e.winBase = 0 then s.bus.setInst j (.scratchpad d) else s.bus)
      ∧ (∀ t, e.type = .other t → ∃ code s' t', s.bus.inst[j]? = some (.other code)
        ∧ step (s.issue (.rd4 a)) = .next s'
        ∧ s'.bus = s.bus.setInst j (.other (Config.otherRead t code (a.toNat - 0xC00 - e.winBase)).2)
        ∧ s'.reply = some (.read 4 (Config.otherRead t code (a.toNat - 0xC00 - e.winBase)).1)
        ∧ step (s.issue (.wr4 a d)) = .next t' ∧ t'.reply = some .written
        ∧ t'.bus = s.bus.setInst j (.other (Config.otherWrite t code (a.toNat - 0xC00 - e.winBase) d))))
    ∧ ((∀ e ∈ s.bus.engines, ¬ (e.winBase ≤ a.toNat - 0xC00 ∧ a.toNat - 0xC00 < e.winBase + e.winSize)) →
        ∃ s' t', step (s.issue (.rd4 a)) = .next s' ∧ s'.bus = s.bus ∧ s'.reply = some (.read 4 0)
          ∧ step (s.issue (.wr4 a d)) = .next t' ∧ t'.bus = s.bus ∧ t'.reply = some .written)

/-- R157: an access to the window of an engine of another type changes no other engine's state, and no byte outside
that window. -/
def Obligations.OtherEngineAccessFrame : Prop :=
  ∀ (s s' : State) (a : Addr) (d : Word) (j t : Nat) (e : Engine), s.Inv → s.bus.engines[j]? = some e →
    e.type = .other t → 0xC00 + e.winBase ≤ a.toNat → a.toNat < 0xC00 + e.winBase + e.winSize →
    (step (s.issue (.rd4 a)) = .next s' ∨ step (s.issue (.wr4 a d)) = .next s') →
    s'.cfg = s.cfg ∧ s'.bus.engines = s.bus.engines ∧ s'.slaveLog = s.slaveLog
      ∧ (∀ k, k ≠ j → s'.bus.inst[k]? = s.bus.inst[k]?)
      ∧ ∀ b, ¬ (0xC00 + e.winBase ≤ b ∧ b < 0xC00 + e.winBase + e.winSize) → s'.byteAt b = s.byteAt b

/-! The Scratchpad -/

/-- R69: a word written to a Scratchpad is what every later read of it returns, whatever admitted transactions come
between, until that register is written again or the bus is reset; and after a reset, zero until it is written. -/
def Obligations.ScratchpadHoldsLastWordUntilReset : Prop :=
  ∀ (s : State) (j : Nat) (e : Engine) (x : Word) (a : Addr) (between : List Transaction), s.Inv →
    s.bus.engines[j]? = some e → e.type = .scratchpad → (∀ t ∈ between, reject? s.cfg t = none) →
    (∀ t ∈ between, ∀ d, t ≠ .wr4 (windowAddr s.bus.engines j 0) d) → (a = 0x000 ∨ a = 0x004) →
    ((∀ t ∈ between, t ≠ .wr4 0x000 s.cfg.chipIdBreak ∧ t ≠ .wr4 0x004 s.cfg.chipIdBreak) →
      ∃ s', Host.Core.run core (between.length + 2)
          { s with pending := .wr4 (windowAddr s.bus.engines j 0) x :: (between
              ++ [.rd4 (windowAddr s.bus.engines j 0)]) } = .next s'
        ∧ s'.reply = some (.read 4 x))
    ∧ ∃ s', Host.Core.run core (between.length + 2)
          { s with pending := .wr4 a s.cfg.chipIdBreak :: (between
              ++ [.rd4 (windowAddr s.bus.engines j 0)]) } = .next s'
        ∧ s'.reply = some (.read 4 0)

/-- R172, R54: a write to a Scratchpad's register stores the word's four bytes, most significant first, at the
register's address, and changes no other byte, no other engine and nothing else of the hub. -/
def Obligations.ScratchpadStoreFrame : Prop :=
  ∀ (s : State) (j : Nat) (e : Engine) (d : Word), s.Inv → s.bus.engines[j]? = some e → e.type = .scratchpad →
    ∃ s', step (s.issue (.wr4 (windowAddr s.bus.engines j 0) d)) = .next s'
      ∧ (windowAddr s.bus.engines j 0).toNat = 0xC00 + e.winBase ∧ s'.bus = s.bus.setInst j (.scratchpad d)
      ∧ s'.byteAt (0xC00 + e.winBase) = some (d.extractLsb' 24 8)
      ∧ s'.byteAt (0xC00 + e.winBase + 1) = some (d.extractLsb' 16 8)
      ∧ s'.byteAt (0xC00 + e.winBase + 2) = some (d.extractLsb' 8 8)
      ∧ s'.byteAt (0xC00 + e.winBase + 3) = some (d.extractLsb' 0 8)
      ∧ (∀ b, ¬ (0xC00 + e.winBase ≤ b ∧ b < 0xC00 + e.winBase + 4) → s'.byteAt b = s.byteAt b)
      ∧ (∀ k, k ≠ j → s'.bus.inst[k]? = s.bus.inst[k]?) ∧ s'.bus.engines = s.bus.engines ∧ s'.cfg = s.cfg
      ∧ s'.slaveLog = s.slaveLog ∧ s'.pending = s.pending

/-- R54: the byte lanes of an aligned word. -/
def Obligations.ByteLanesAreBigEndian : Prop :=
  ∀ (s : State) (a : Nat) (w : Word), a % 4 = 0 → s.wordAt a = some w →
    s.byteAt a = some (w.extractLsb' 24 8) ∧ s.byteAt (a + 1) = some (w.extractLsb' 16 8)
      ∧ s.byteAt (a + 2) = some (w.extractLsb' 8 8) ∧ s.byteAt (a + 3) = some (w.extractLsb' 0 8)

/-! Reset -/

/-- R42: after a cold reset the hub is as after power-on: every `inst[k]`, with the list and the constants kept. -/
def Obligations.ColdResetIsPowerOnState : Prop :=
  ∀ (s : State) (a : Addr), s.Inv → a = 0x000 ∨ a = 0x004 →
    ∃ s', step (s.issue (.wr4 a s.cfg.chipIdBreak)) = .next s' ∧ s'.bus = (State.powerOn s.cfg).bus
      ∧ s'.cfg = (State.powerOn s.cfg).cfg ∧ s'.bus.engines = s.bus.engines ∧ s'.cfg = s.cfg

/-- R134, R153: after a cold reset every Scratchpad window reads zero, and every byte outside the engines' windows
reads as before; the primary-slave component is told nothing. -/
def Obligations.ColdResetClearsScratchpadsAndNothingOutsideWindows : Prop :=
  ∀ (s : State) (a : Addr), s.Inv → a = 0x000 ∨ a = 0x004 →
    ∃ s', step (s.issue (.wr4 a s.cfg.chipIdBreak)) = .next s' ∧ s'.slaveLog = s.slaveLog
      ∧ (∀ e ∈ s.bus.engines, e.type = .scratchpad → ∀ b, 0xC00 + e.winBase ≤ b → b < 0xC00 + e.winBase + e.winSize →
          s'.byteAt b = some 0)
      ∧ (∀ b, (∀ e ∈ s.bus.engines, ¬ (0xC00 + e.winBase ≤ b ∧ b < 0xC00 + e.winBase + e.winSize)) →
          s'.byteAt b = s.byteAt b)

/-- R67: the writes of R66 (a) and (b) are idempotent. -/
def Obligations.EffectiveWritesAreIdempotent : Prop :=
  ∀ (s : State) (t : Transaction), s.Inv →
    ((t = .wr4 0x000 s.cfg.chipIdBreak ∨ t = .wr4 0x004 s.cfg.chipIdBreak)
      ∨ ∃ (j : Nat) (e : Engine) (d : Word), s.bus.engines[j]? = some e ∧ e.type = .scratchpad
          ∧ t = .wr4 (windowAddr s.bus.engines j 0) d) →
    ∃ s₁ s₂, step (s.issue t) = .next s₁ ∧ step (s₁.issue t) = .next s₂ ∧ s₂.bus = s₁.bus ∧ s₂.cfg = s₁.cfg
      ∧ s₂.reply = s₁.reply

/-- R41: the state after power-on construction. -/
def Obligations.PowerOnState : Prop :=
  ∀ c : Config, (State.powerOn c).cfg = c ∧ (State.powerOn c).bus.engines = c.engines
    ∧ (State.powerOn c).bus.engines[0]? = some ⟨.scratchpad, 0, c.scratchWin⟩
    ∧ (State.powerOn c).bus.inst.length = c.engines.length
    ∧ ∀ (k : Nat) (e : Engine), (State.powerOn c).bus.engines[k]? = some e →
        (e.type = .scratchpad → (State.powerOn c).bus.inst[k]? = some (.scratchpad 0))
        ∧ (∀ t, e.type = .other t → (State.powerOn c).bus.inst[k]? = some (.other (Config.otherReset t)))

/-- R213: construction makes a hub from a configuration that meets R8, and none from any other. -/
def Obligations.ConstructionIsTotalOnGoodConfigurations : Prop :=
  ∀ c : Config, (c.wf = true → State.powerOn? c = some (State.powerOn c)) ∧ (c.wf = false → State.powerOn? c = none)

/-- R212: what a host sees right after power-on, in every default configuration (R9: no further engine). -/
def Obligations.FirstReadsAfterPowerOn : Prop :=
  ∀ (c : Config) (a : Addr) (w : Word), c.wf = true → c.further = [] →
    (a, w) ∈ [(0x000, c.chipId), (0x004, c.peekDescriptor), (0x008, c.fsiDescriptor), (0x00C, c.scratchpadDescriptor),
      (0x010, 0), (0x014, c.chipIdBreak), (0xC00, 0)] →
    ∃ s', step ((State.powerOn c).issue (.rd4 a)) = .next s' ∧ s'.reply = some (.read 4 w)

/-- R221: the back-to-back cases, for every Scratchpad of every hub. -/
def Obligations.BackToBackSequences : Prop :=
  ∀ (s : State) (j : Nat) (e : Engine) (x : Word) (b : Addr), s.Inv → s.bus.engines[j]? = some e →
    e.type = .scratchpad → b.toNat < 0x400 → b.toNat % 4 = 0 →
    let reg := windowAddr s.bus.engines j 0
    let brk := Transaction.wr4 0x000 s.cfg.chipIdBreak
    (∃ s', Host.Core.run core 3 { s with pending := [.wr4 reg x, brk, .rd4 reg] } = .next s'
      ∧ s'.reply = some (.read 4 0))
    ∧ (∃ s', Host.Core.run core 3 { s with pending := [brk, .wr4 reg x, .rd4 reg] } = .next s'
      ∧ s'.reply = some (.read 4 x))
    ∧ (∃ s' s'', Host.Core.run core 1 { s with pending := [brk] } = .next s'
      ∧ Host.Core.run core 2 { s with pending := [brk, brk] } = .next s'' ∧ s''.bus = s'.bus)
    ∧ (∃ s' s'', Host.Core.run core 2 { s with pending := [.rd4 b, .rd4 reg] } = .next s'
      ∧ Host.Core.run core 1 { s with pending := [.rd4 reg] } = .next s'' ∧ s'.reply = s''.reply ∧ s'.bus = s''.bus)
    ∧ (∃ s' s'', Host.Core.run core 2 { s with pending := [.wr4 reg x, .rd4 b] } = .next s'
      ∧ Host.Core.run core 1 { s with pending := [.rd4 b] } = .next s'' ∧ s'.reply = s''.reply)

/-! The router -/

/-- R109: all of unmapped space, at every admitted width and alignment, reads zero and drops writes. -/
def Obligations.UnmappedReadsZeroAndDropsWrites : Prop :=
  ∀ (s : State) (a : Addr) (n : Nat) (d : BitVec (8 * n)), n ∈ s.cfg.accessSizes → 0 < n → a.toNat + n ≤ 0x200000 →
    (∀ i < n, ¬ a.toNat + i < 0x400 ∧ ¬ (0x800 ≤ a.toNat + i ∧ a.toNat + i < 0x800 + s.cfg.slaveSize)
      ∧ ¬ (0xC00 ≤ a.toNat + i ∧ a.toNat + i < 0xC00 + s.cfg.lbusSize)) →
    (∃ s', step (s.issue (.rd a n)) = .next s' ∧ s'.reply = some (.read n 0) ∧ s'.bus = s.bus ∧ s'.cfg = s.cfg
      ∧ s'.slaveLog = s.slaveLog)
    ∧ ∃ s', step (s.issue (.wr a n d)) = .next s' ∧ s'.reply = some .written ∧ s'.bus = s.bus ∧ s'.cfg = s.cfg
      ∧ s'.slaveLog = s.slaveLog ∧ ∀ b, s'.byteAt b = s.byteAt b

/-- R106, R107, R103: an aligned access to the primary-slave window reaches the external component at its offset,
with its data unchanged, and changes nothing of the hub. -/
def Obligations.SlaveWindowDelegates : Prop :=
  ∀ (s : State) (a : Addr) (d : Word), s.cfg.wf = true → 0x800 ≤ a.toNat → a.toNat < 0x800 + s.cfg.slaveSize →
    a.toNat % 4 = 0 →
    (∃ s' v, step (s.issue (.rd4 a)) = .next s' ∧ s'.reply = some (.read 4 v)
      ∧ s'.slaveLog = s.slaveLog ++ [.read (a.toNat - 0x800)] ∧ s'.bus = s.bus ∧ s'.cfg = s.cfg)
    ∧ ∃ s', step (s.issue (.wr4 a d)) = .next s' ∧ s'.reply = some .written
      ∧ s'.slaveLog = s.slaveLog ++ [.write (a.toNat - 0x800) d] ∧ s'.bus = s.bus ∧ s'.cfg = s.cfg

/-- R35, R38, R101: outside the primary-slave window, an aligned read returns the word the space shows there. -/
def Obligations.ReadReturnsTheWordShown : Prop :=
  ∀ (s : State) (a : Addr), s.Inv → a.toNat % 4 = 0 → region s.cfg a.toNat ≠ .slave →
    ∃ s' w, step (s.issue (.rd4 a)) = .next s' ∧ s'.reply = some (.read 4 w) ∧ s.wordAt a.toNat = some w

/-- R65: a read changes no engine, but for the engine of another type whose window it hits; and outside that case and
the primary-slave window, repeating it returns the same value. -/
def Obligations.ReadsHaveNoSideEffect : Prop :=
  ∀ (s s₁ : State) (a : Addr) (n : Nat), s.Inv → step (s.issue (.rd a n)) = .next s₁ →
    (¬ (∃ (j : Nat) (e : Engine) (t : Nat), s.bus.engines[j]? = some e ∧ e.type = .other t
        ∧ region s.cfg a.toNat = .lbus ∧ e.winBase ≤ a.toNat - 0xC00 ∧ a.toNat - 0xC00 < e.winBase + e.winSize) → s₁.bus = s.bus)
    ∧ (s₁.bus = s.bus → region s.cfg a.toNat ≠ .slave →
        ∃ s₂, step (s₁.issue (.rd a n)) = .next s₂ ∧ s₂.reply = s₁.reply ∧ s₂.bus = s.bus)

/-- R66: the transactions whose effect changes the hub, in full (R65 adds the read of an engine of another type). -/
def Obligations.OnlyTheseTransactionsChangeTheHub : Prop :=
  ∀ (s s' : State) (t : Transaction) (rest : List Transaction), s.Inv → s.pending = t :: rest → step s = .next s' →
    s'.bus ≠ s.bus →
    ((t = .wr4 0x000 s.cfg.chipIdBreak ∨ t = .wr4 0x004 s.cfg.chipIdBreak) ∧ s'.bus = s.bus.coldReset)
    ∨ (∃ (j : Nat) (e : Engine) (d : Word), s.bus.engines[j]? = some e ∧ e.type = .scratchpad
        ∧ t = .wr4 (windowAddr s.bus.engines j 0) d ∧ s'.bus = s.bus.setInst j (.scratchpad d))
    ∨ (∃ (j : Nat) (e : Engine) (tag code : Nat), s.bus.engines[j]? = some e ∧ e.type = .other tag
        ∧ region s.cfg t.addr.toNat = .lbus ∧ e.winBase ≤ t.addr.toNat - 0xC00 ∧ t.addr.toNat - 0xC00 < e.winBase + e.winSize
        ∧ s'.bus = s.bus.setInst j (.other code))

/-! The diagnostic hook -/

/-- R200: the hook is an output no rule reads: another trace before a step changes nothing after it but the trace, and
a step only appends to it. -/
def Obligations.TraceIsASideChannel : Prop :=
  (∀ (s s' : State) (tr : List TraceEvent), step s = .next s' →
    ∃ tr', step { s with trace := tr } = .next { s' with trace := tr' })
  ∧ (∀ (s : State) (r : Refusal) (tr : List TraceEvent), step s = .refused r →
      step { s with trace := tr } = .refused r)
  ∧ ∀ s s' : State, step s = .next s' → s.trace <+: s'.trace

/-- R201: the events a transaction may emit: its read or write event, and, for a write of the Configuration Region at
0x008 or above, the unrecognised-write event. -/
def Obligations.EventsOfATransaction : Prop :=
  ∀ (s s' : State) (t : Transaction) (rest : List Transaction), s.pending = t :: rest → step s = .next s' →
    ∃ l, s'.trace = s.trace ++ l ∧
      match t with
      | .rd a n => l.Sublist [.read a.toNat n]
      | .wr a n d =>
        if a.toNat < 0x400 ∧ 0x008 ≤ a.toNat
        then l.Sublist [.write a.toNat n d.toNat, .unrecognisedWrite a.toNat n d.toNat]
        else l.Sublist [.write a.toNat n d.toNat]
end

