-- ==== Sys2Proof/Laws/State.lean ====
section
/-! SUPPORT. One lemma per field per shared operation on State, and per field of the bus operations: later proofs
rewrite with them instead of unfolding record updates. -/

namespace Sys2Proof.Machine

namespace State

@[simp] theorem offer_cfg (s : State) (ev : TraceEvent) : (s.offer ev).cfg = s.cfg := rfl
@[simp] theorem offer_bus (s : State) (ev : TraceEvent) : (s.offer ev).bus = s.bus := rfl
@[simp] theorem offer_pending (s : State) (ev : TraceEvent) : (s.offer ev).pending = s.pending := rfl
@[simp] theorem offer_reply (s : State) (ev : TraceEvent) : (s.offer ev).reply = s.reply := rfl
@[simp] theorem offer_slaveLog (s : State) (ev : TraceEvent) : (s.offer ev).slaveLog = s.slaveLog := rfl
@[simp] theorem offer_trace (s : State) (ev : TraceEvent) : (s.offer ev).trace = if Config.emitsEvent s.draws ev then s.trace ++ [ev] else s.trace := rfl
@[simp] theorem offer_draws (s : State) (ev : TraceEvent) : (s.offer ev).draws = s.draws + 1 := rfl

@[simp] theorem accept_cfg (s : State) (t : Transaction) (rest : List Transaction) : (s.accept t rest).cfg = s.cfg := rfl
@[simp] theorem accept_bus (s : State) (t : Transaction) (rest : List Transaction) : (s.accept t rest).bus = s.bus := rfl
@[simp] theorem accept_pending (s : State) (t : Transaction) (rest : List Transaction) : (s.accept t rest).pending = rest := rfl
@[simp] theorem accept_reply (s : State) (t : Transaction) (rest : List Transaction) : (s.accept t rest).reply = s.reply := rfl
@[simp] theorem accept_slaveLog (s : State) (t : Transaction) (rest : List Transaction) : (s.accept t rest).slaveLog = s.slaveLog := rfl
@[simp] theorem accept_trace (s : State) (t : Transaction) (rest : List Transaction) : (s.accept t rest).trace = if Config.emitsEvent s.draws (State.accessEvent t) then s.trace ++ [State.accessEvent t] else s.trace := rfl
@[simp] theorem accept_draws (s : State) (t : Transaction) (rest : List Transaction) : (s.accept t rest).draws = s.draws + 1 := rfl

@[simp] theorem finish_cfg (s : State) (r : Reply) : (s.finish r).cfg = s.cfg := rfl
@[simp] theorem finish_bus (s : State) (r : Reply) : (s.finish r).bus = s.bus := rfl
@[simp] theorem finish_pending (s : State) (r : Reply) : (s.finish r).pending = s.pending := rfl
@[simp] theorem finish_reply (s : State) (r : Reply) : (s.finish r).reply = some r := rfl
@[simp] theorem finish_slaveLog (s : State) (r : Reply) : (s.finish r).slaveLog = s.slaveLog := rfl
@[simp] theorem finish_trace (s : State) (r : Reply) : (s.finish r).trace = s.trace := rfl
@[simp] theorem finish_draws (s : State) (r : Reply) : (s.finish r).draws = s.draws := rfl

@[simp] theorem finishWord_cfg (s : State) (w : Word) : (s.finishWord w).cfg = s.cfg := rfl
@[simp] theorem finishWord_bus (s : State) (w : Word) : (s.finishWord w).bus = s.bus := rfl
@[simp] theorem finishWord_pending (s : State) (w : Word) : (s.finishWord w).pending = s.pending := rfl
@[simp] theorem finishWord_reply (s : State) (w : Word) : (s.finishWord w).reply = some (.read 4 w) := rfl
@[simp] theorem finishWord_slaveLog (s : State) (w : Word) : (s.finishWord w).slaveLog = s.slaveLog := rfl
@[simp] theorem finishWord_trace (s : State) (w : Word) : (s.finishWord w).trace = s.trace := rfl
@[simp] theorem finishWord_draws (s : State) (w : Word) : (s.finishWord w).draws = s.draws := rfl

@[simp] theorem finishWrite_cfg (s : State) : (s.finishWrite).cfg = s.cfg := rfl
@[simp] theorem finishWrite_bus (s : State) : (s.finishWrite).bus = s.bus := rfl
@[simp] theorem finishWrite_pending (s : State) : (s.finishWrite).pending = s.pending := rfl
@[simp] theorem finishWrite_reply (s : State) : (s.finishWrite).reply = some .written := rfl
@[simp] theorem finishWrite_slaveLog (s : State) : (s.finishWrite).slaveLog = s.slaveLog := rfl
@[simp] theorem finishWrite_trace (s : State) : (s.finishWrite).trace = s.trace := rfl
@[simp] theorem finishWrite_draws (s : State) : (s.finishWrite).draws = s.draws := rfl

@[simp] theorem deliver_cfg (s : State) (a : SlaveAccess) : (s.deliver a).cfg = s.cfg := rfl
@[simp] theorem deliver_bus (s : State) (a : SlaveAccess) : (s.deliver a).bus = s.bus := rfl
@[simp] theorem deliver_pending (s : State) (a : SlaveAccess) : (s.deliver a).pending = s.pending := rfl
@[simp] theorem deliver_reply (s : State) (a : SlaveAccess) : (s.deliver a).reply = s.reply := rfl
@[simp] theorem deliver_slaveLog (s : State) (a : SlaveAccess) : (s.deliver a).slaveLog = s.slaveLog ++ [a] := rfl
@[simp] theorem deliver_trace (s : State) (a : SlaveAccess) : (s.deliver a).trace = s.trace := rfl
@[simp] theorem deliver_draws (s : State) (a : SlaveAccess) : (s.deliver a).draws = s.draws := rfl

@[simp] theorem slaveRead_cfg (s : State) (o : Nat) : (s.slaveRead o).cfg = s.cfg := rfl
@[simp] theorem slaveRead_bus (s : State) (o : Nat) : (s.slaveRead o).bus = s.bus := rfl
@[simp] theorem slaveRead_pending (s : State) (o : Nat) : (s.slaveRead o).pending = s.pending := rfl
@[simp] theorem slaveRead_reply (s : State) (o : Nat) : (s.slaveRead o).reply = some (.read 4 (Config.slaveAnswer s.draws s.slaveLog o)) := rfl
@[simp] theorem slaveRead_slaveLog (s : State) (o : Nat) : (s.slaveRead o).slaveLog = s.slaveLog ++ [.read o] := rfl
@[simp] theorem slaveRead_trace (s : State) (o : Nat) : (s.slaveRead o).trace = s.trace := rfl
@[simp] theorem slaveRead_draws (s : State) (o : Nat) : (s.slaveRead o).draws = s.draws + 1 := rfl

@[simp] theorem slaveWrite_cfg (s : State) (o : Nat) (d : Word) : (s.slaveWrite o d).cfg = s.cfg := rfl
@[simp] theorem slaveWrite_bus (s : State) (o : Nat) (d : Word) : (s.slaveWrite o d).bus = s.bus := rfl
@[simp] theorem slaveWrite_pending (s : State) (o : Nat) (d : Word) : (s.slaveWrite o d).pending = s.pending := rfl
@[simp] theorem slaveWrite_reply (s : State) (o : Nat) (d : Word) : (s.slaveWrite o d).reply = some .written := rfl
@[simp] theorem slaveWrite_slaveLog (s : State) (o : Nat) (d : Word) : (s.slaveWrite o d).slaveLog = s.slaveLog ++ [.write o d] := rfl
@[simp] theorem slaveWrite_trace (s : State) (o : Nat) (d : Word) : (s.slaveWrite o d).trace = s.trace := rfl
@[simp] theorem slaveWrite_draws (s : State) (o : Nat) (d : Word) : (s.slaveWrite o d).draws = s.draws := rfl

@[simp] theorem trigger_cfg (s : State) (d : Word) : (s.trigger d).cfg = s.cfg := rfl
@[simp] theorem trigger_bus (s : State) (d : Word) : (s.trigger d).bus = if d = s.cfg.chipIdBreak then s.bus.coldReset else s.bus := rfl
@[simp] theorem trigger_pending (s : State) (d : Word) : (s.trigger d).pending = s.pending := rfl
@[simp] theorem trigger_reply (s : State) (d : Word) : (s.trigger d).reply = s.reply := rfl
@[simp] theorem trigger_slaveLog (s : State) (d : Word) : (s.trigger d).slaveLog = s.slaveLog := rfl
@[simp] theorem trigger_trace (s : State) (d : Word) : (s.trigger d).trace = s.trace := rfl
@[simp] theorem trigger_draws (s : State) (d : Word) : (s.trigger d).draws = s.draws := rfl

@[simp] theorem setInst_cfg (s : State) (j : Nat) (v : InstState) : (s.setInst j v).cfg = s.cfg := rfl
@[simp] theorem setInst_bus (s : State) (j : Nat) (v : InstState) : (s.setInst j v).bus = s.bus.setInst j v := rfl
@[simp] theorem setInst_pending (s : State) (j : Nat) (v : InstState) : (s.setInst j v).pending = s.pending := rfl
@[simp] theorem setInst_reply (s : State) (j : Nat) (v : InstState) : (s.setInst j v).reply = s.reply := rfl
@[simp] theorem setInst_slaveLog (s : State) (j : Nat) (v : InstState) : (s.setInst j v).slaveLog = s.slaveLog := rfl
@[simp] theorem setInst_trace (s : State) (j : Nat) (v : InstState) : (s.setInst j v).trace = s.trace := rfl
@[simp] theorem setInst_draws (s : State) (j : Nat) (v : InstState) : (s.setInst j v).draws = s.draws := rfl

@[simp] theorem issue_cfg (s : State) (t : Transaction) : (s.issue t).cfg = s.cfg := rfl
@[simp] theorem issue_bus (s : State) (t : Transaction) : (s.issue t).bus = s.bus := rfl
@[simp] theorem issue_pending (s : State) (t : Transaction) : (s.issue t).pending = t :: s.pending := rfl
@[simp] theorem issue_reply (s : State) (t : Transaction) : (s.issue t).reply = s.reply := rfl
@[simp] theorem issue_slaveLog (s : State) (t : Transaction) : (s.issue t).slaveLog = s.slaveLog := rfl
@[simp] theorem issue_trace (s : State) (t : Transaction) : (s.issue t).trace = s.trace := rfl
@[simp] theorem issue_draws (s : State) (t : Transaction) : (s.issue t).draws = s.draws := rfl

@[simp] theorem powerOn_cfg (c : Config) : (powerOn c).cfg = c := rfl
@[simp] theorem powerOn_bus (c : Config) : (powerOn c).bus = Bus.construct c := rfl
@[simp] theorem powerOn_pending (c : Config) : (powerOn c).pending = [] := rfl

end State

namespace Bus

@[simp] theorem coldReset_engines (b : Bus) : b.coldReset.engines = b.engines := rfl
@[simp] theorem coldReset_inst (b : Bus) : b.coldReset.inst = b.engines.map fun e => resetState e.type := rfl
@[simp] theorem setInst_engines (b : Bus) (j : Nat) (v : InstState) : (b.setInst j v).engines = b.engines := rfl
@[simp] theorem setInst_inst (b : Bus) (j : Nat) (v : InstState) : (b.setInst j v).inst = b.inst.set j v := rfl
@[simp] theorem attach_engines (b : Bus) (e : Engine) : (b.attach e).engines = b.engines ++ [e] := rfl
@[simp] theorem attach_inst (b : Bus) (e : Engine) : (b.attach e).inst = b.inst ++ [resetState e.type] := rfl

end Bus

end Sys2Proof.Machine
end

