-- ==== Sys2Proof/Laws/Windows.lean ====
section
/-! SUPPORT. What `windowHit` finds (R86), and the region of an address under the constraints of R8 (R60, R83). -/

namespace Sys2Proof

theorem Engine.covers_iff (e : Engine) (o : Nat) :
    e.covers o = true ↔ e.winBase ≤ o ∧ o < e.winBase + e.winSize := by
  simp [Engine.covers]

/-- A hit names an engine of the list whose window holds the offset. -/
theorem windowHit_some {es : List Engine} {o j : Nat} {e : Engine} (h : windowHit es o = some (j, e)) :
    es[j]? = some e ∧ e.winBase ≤ o ∧ o < e.winBase + e.winSize := by
  induction es generalizing j with
  | nil => simp [windowHit] at h
  | cons f es ih =>
    rw [windowHit] at h
    split at h
    · next hc =>
      obtain ⟨rfl, rfl⟩ : 0 = j ∧ f = e := by simpa using h
      exact ⟨rfl, (f.covers_iff o).1 hc⟩
    · obtain ⟨⟨j', e'⟩, hh, heq⟩ := Option.map_eq_some_iff.1 h
      obtain ⟨rfl, rfl⟩ : j' + 1 = j ∧ e' = e := by simpa using heq
      simpa using ih hh

/-- A hole is an offset no window holds (R61). -/
theorem windowHit_none {es : List Engine} {o : Nat} :
    windowHit es o = none ↔ ∀ e ∈ es, ¬ (e.winBase ≤ o ∧ o < e.winBase + e.winSize) := by
  induction es with
  | nil => simp [windowHit]
  | cons f es ih =>
    rw [windowHit]
    by_cases hc : f.covers o
    · have := (f.covers_iff o).1 hc
      simp [hc, this]
    · have := mt (f.covers_iff o).2 hc
      simp only [hc, Bool.false_eq_true, if_false, Option.map_eq_none_iff, ih, List.mem_cons,
        forall_eq_or_imp, this, not_false_eq_true, true_and]

/-- Windows are disjoint (R8), so an engine whose window holds the offset is the one hit (R86, "unique"). -/
theorem windowHit_of_covers {es : List Engine} (hd : windowsDisjoint es = true) {o j : Nat} {e : Engine}
    (he : es[j]? = some e) (ho : e.winBase ≤ o ∧ o < e.winBase + e.winSize) : windowHit es o = some (j, e) := by
  induction es generalizing j with
  | nil => simp at he
  | cons f es ih =>
    simp only [windowsDisjoint, Bool.and_eq_true, List.all_eq_true] at hd
    rw [windowHit]
    cases j with
    | zero =>
      obtain rfl : f = e := by simpa using he
      simp [(f.covers_iff o).2 ho]
    | succ j =>
      have he' : es[j]? = some e := by simpa using he
      have hdis : f.disjoint e = true := hd.1 e (List.mem_of_getElem? he')
      have hnc : ¬ f.covers o = true := by
        rw [Engine.covers_iff]
        simp only [Engine.disjoint, decide_eq_true_eq] at hdis
        omega
      simp [hnc, ih hd.2 he']

theorem enginesOk_iff {c : Config} {es : List Engine} : enginesOk c es = true ↔
    (1 ≤ es.length ∧ es.length ≤ 252) ∧ (∀ e ∈ es, e.windowOk c.lbusSize = true) ∧ windowsDisjoint es = true := by
  simp [enginesOk, and_assoc]

/-- The window of a listed engine, in numbers (R8). -/
theorem windowOk_of_getElem? {c : Config} {es : List Engine} (h : enginesOk c es = true) {j : Nat} {e : Engine}
    (he : es[j]? = some e) :
    e.winBase % 4 = 0 ∧ e.winSize % 4 = 0 ∧ 4 ≤ e.winSize ∧ e.winBase + e.winSize ≤ c.lbusSize := by
  simpa [Engine.windowOk] using (enginesOk_iff.1 h).2.1 e (List.mem_of_getElem? he)

theorem sizesOk_iff {c : Config} : c.sizesOk = true ↔
    (0 < c.slaveSize ∧ c.slaveSize ≤ 0x400 ∧ c.slaveSize % 4 = 0)
      ∧ (c.lbusSize % 4 = 0 ∧ 0xC00 + c.lbusSize ≤ 0x200000)
      ∧ (4 ≤ c.scratchWin ∧ c.scratchWin % 4 = 0 ∧ c.scratchWin ≤ c.lbusSize) := by
  simp only [Config.sizesOk, Bool.and_eq_true, decide_eq_true_eq, and_assoc]
  rfl

/-- The parts of R8 that the address decode uses. -/
theorem Config.wf_parts {c : Config} (h : c.wf = true) :
    c.chipIdBreak ≠ 0 ∧ c.chipIdBreak ≠ c.chipId ∧ c.sizesOk = true ∧ enginesOk c c.engines = true
      ∧ 4 ∈ c.accessSizes := by
  simp only [Config.wf, Config.identityOk, Bool.and_eq_true, decide_eq_true_eq] at h
  tauto

/-- R83, each region by its bounds in the space. -/
theorem region_eq (c : Config) (a : Nat) : region c a =
    if a < 0x400 then .cfg
    else if 0xC00 ≤ a ∧ a < 0xC00 + c.lbusSize then .lbus
    else if 0x800 ≤ a ∧ a < 0x800 + c.slaveSize then .slave
    else .unmapped := by
  have hs : (slaveBase ≤ a ∧ a - slaveBase < c.slaveSize) ↔ 0x800 ≤ a ∧ a < 0x800 + c.slaveSize := by
    simp only [slaveBase]; omega
  have hl : (lbusBase ≤ a ∧ a - lbusBase < c.lbusSize) ↔ 0xC00 ≤ a ∧ a < 0xC00 + c.lbusSize := by
    simp only [lbusBase]; omega
  simp only [region, hs, hl, cfgSize]

theorem region_cfg {c : Config} {a : Nat} : region c a = .cfg ↔ a < 0x400 := by
  rw [region_eq]
  split_ifs <;> simp_all

theorem region_lbus {c : Config} {a : Nat} : region c a = .lbus ↔ 0xC00 ≤ a ∧ a < 0xC00 + c.lbusSize := by
  rw [region_eq]
  split_ifs <;> simp_all
  omega

theorem region_slave {c : Config} (h : c.sizesOk = true) {a : Nat} :
    region c a = .slave ↔ 0x800 ≤ a ∧ a < 0x800 + c.slaveSize := by
  have hs := (sizesOk_iff.1 h).1
  rw [region_eq]
  split_ifs <;> simp_all <;> omega

theorem region_unmapped {c : Config} {a : Nat} : region c a = .unmapped ↔
    ¬ a < 0x400 ∧ ¬ (0x800 ≤ a ∧ a < 0x800 + c.slaveSize) ∧ ¬ (0xC00 ≤ a ∧ a < 0xC00 + c.lbusSize) := by
  rw [region_eq]
  split_ifs <;> simp_all

theorem inOneRegion_iff {c : Config} {a n : Nat} :
    inOneRegion c a n = true ↔ ∀ i < n, region c (a + i) = region c a := by
  simp [inOneRegion]

/-- The bases and sizes of mapped regions are multiples of 4, so an aligned word never straddles (R57). -/
theorem inOneRegion_aligned {c : Config} (h : c.sizesOk = true) {a : Nat} (ha : a % 4 = 0) :
    inOneRegion c a 4 = true := by
  have hs := sizesOk_iff.1 h
  rw [inOneRegion_iff]
  intro i hi
  cases hr : region c a with
  | cfg => rw [region_cfg] at hr ⊢; omega
  | slave => rw [region_slave h] at hr ⊢; omega
  | lbus => rw [region_lbus] at hr ⊢; omega
  | unmapped => rw [region_unmapped] at hr ⊢; omega

end Sys2Proof
end

