-- ==== Sys2Proof/Laws/Bus.lean ====
section
/-! SUPPORT. What construction (R210), lookups and the table walk (R126) give. -/

namespace Sys2Proof.Machine

namespace Bus

/-- A sequence of attaches appends the engines in order, each in its reset state (R151). -/
theorem foldl_attach (l : List Engine) (b : Bus) :
    l.foldl attach b = ⟨b.engines ++ l, b.inst ++ l.map fun e => resetState e.type⟩ := by
  induction l generalizing b with
  | nil => simp
  | cons e l ih => simp [ih, attach]

/-- The bus POWER_ON leaves (R41). -/
theorem construct_eq (c : Config) :
    construct c = ⟨c.engines, c.engines.map fun e => resetState e.type⟩ := by
  simp [construct, foldl_attach, empty, attach, Config.engines]

theorem scratch?_eq {b : Bus} {j : Nat} {v : Word} (h : b.inst[j]? = some (.scratchpad v)) :
    b.scratch? j = some v := by
  simp [scratch?, h]

theorem scratch?_some {b : Bus} {j : Nat} {v : Word} (h : b.scratch? j = some v) :
    b.inst[j]? = some (.scratchpad v) := by
  unfold scratch? at h
  split at h <;> simp_all

theorem other?_some {b : Bus} {j t code : Nat} (h : b.other? j = some (t, code)) :
    (∃ e : Engine, b.engines[j]? = some e ∧ e.type = .other t) ∧ b.inst[j]? = some (.other code) := by
  unfold other? at h
  split at h <;> simp_all

theorem other?_eq {b : Bus} {j t code : Nat} {e : Engine} (he : b.engines[j]? = some e) (ht : e.type = .other t)
    (hi : b.inst[j]? = some (.other code)) : b.other? j = some (t, code) := by
  obtain ⟨type, base, size⟩ := e
  obtain rfl : type = .other t := ht
  simp [other?, he, hi]

end Bus

/-- An engine of the list has an instance state of its type (R20, R154). -/
theorem inst_of_engine {es : List Engine} {is : List InstState} (h : List.Forall₂ instOk es is) {j : Nat}
    {e : Engine} (he : es[j]? = some e) : ∃ i, is[j]? = some i ∧ instOk e i := by
  induction h generalizing j with
  | nil => simp at he
  | @cons e' i' es is hi _ ih =>
    cases j with
    | zero =>
      obtain rfl : e' = e := by simpa using he
      exact ⟨i', by simp, hi⟩
    | succ j => simpa using ih (by simpa using he)

/-- Replacing one engine's state by one of its type keeps the types (R154). -/
theorem forall₂_set {es : List Engine} {is : List InstState} (h : List.Forall₂ instOk es is) {j : Nat} {i : InstState}
    (hi : ∀ e, es[j]? = some e → instOk e i) : List.Forall₂ instOk es (is.set j i) := by
  induction h generalizing j with
  | nil => simp
  | @cons e' i' es is he _ ih =>
    cases j with
    | zero => exact List.Forall₂.cons (hi e' (by simp)) ‹_›
    | succ j => exact List.Forall₂.cons he (ih fun e hj => hi e (by simpa using hj))

/-- The reset states have their engines' types (R150). -/
theorem forall₂_resetState (es : List Engine) :
    List.Forall₂ instOk es (es.map fun e => resetState e.type) := by
  induction es with
  | nil => simp
  | cons e es ih =>
    refine List.Forall₂.cons ?_ ih
    obtain ⟨type, base, size⟩ := e
    cases type <;> simp [instOk, resetState]

/-- The walk's closed form (R126): slot `k`, the next free slot, and everything after it. -/
theorem cfgWalk_slot (c : Config) (es : List Engine) (a k : Nat) : cfgWalk c (a + 4 * k) a es =
    if k < es.length then (es[k]?.elim 0 fun e => e.type.desc c) else if k = es.length then 0 else c.chipIdBreak := by
  induction es generalizing a k with
  | nil => rcases k with _ | k <;> simp [cfgWalk]
  | cons e es ih =>
    rcases k with _ | k
    · simp [cfgWalk]
    · have h4 : a + 4 * (k + 1) = a + 4 + 4 * k := by omega
      have hne : ¬ a = a + 4 * (k + 1) := by omega
      rw [cfgWalk, if_neg hne, h4]
      simp [ih]

/-- `cfg_read` in the closed form of R126, for an aligned address from 0x0C up. -/
theorem cfgRead_slot (c : Config) (es : List Engine) {a : Nat} (ha : 0x0C ≤ a) (h4 : a % 4 = 0) : cfgRead c es a =
    if slotIndex a < es.length then (es[slotIndex a]?.elim 0 fun e => e.type.desc c)
    else if slotIndex a = es.length then 0 else c.chipIdBreak := by
  have hs : a = 0x0C + 4 * slotIndex a := by simp only [slotIndex, enumBase, enumStride]; omega
  rw [← cfgWalk_slot c es 0x0C (slotIndex a), ← hs]
  unfold cfgRead
  rw [if_neg (by omega), if_neg (by omega), if_neg (by omega)]
  rfl

end Sys2Proof.Machine
end

