-- ==== Sys2Proof/Laws/Decode.lean ====
section
/-! SUPPORT. What the decoder answers: the admission test in words (R102), the row selected in each region (R89), and
the operations' selection predicates in numbers. -/

namespace Sys2Proof

@[simp] theorem Transaction.addr_rd4 (a : Addr) : (rd4 a).addr = a := rfl
@[simp] theorem Transaction.size_rd4 (a : Addr) : (rd4 a).size = 4 := rfl
@[simp] theorem Transaction.addr_wr4 (a : Addr) (w : Word) : (wr4 a w).addr = a := rfl
@[simp] theorem Transaction.size_wr4 (a : Addr) (w : Word) : (wr4 a w).size = 4 := rfl
@[simp] theorem Transaction.addr_rd (a : Addr) (n : Nat) : (rd a n).addr = a := rfl
@[simp] theorem Transaction.size_rd (a : Addr) (n : Nat) : (rd a n).size = n := rfl
@[simp] theorem Transaction.addr_wr (a : Addr) (n : Nat) (d : BitVec (8 * n)) : (wr a n d).addr = a := rfl
@[simp] theorem Transaction.size_wr (a : Addr) (n : Nat) (d : BitVec (8 * n)) : (wr a n d).size = n := rfl

/-- The admission test, R102. -/
theorem reject?_none_iff {c : Config} {t : Transaction} : reject? c t = none ↔
    t.size ∈ c.accessSizes ∧ t.addr.toNat + t.size ≤ 0x200000
      ∧ (region c t.addr.toNat ≠ .unmapped → t.size = 4 ∧ t.addr.toNat % 4 = 0)
      ∧ inOneRegion c t.addr.toNat t.size = true := by
  unfold reject?
  by_cases h1 : t.size ∉ c.accessSizes
  · simp [h1]
  rw [if_neg h1]
  by_cases h2 : cfamSize < t.addr.toNat + t.size
  · rw [if_pos h2]
    simp only [cfamSize] at h2
    simp only [reduceCtorEq, false_iff]
    omega
  rw [if_neg h2]
  by_cases h3 : region c t.addr.toNat ≠ .unmapped ∧ t.size ≠ 4
  · simp only [if_pos h3, reduceCtorEq, false_iff]
    tauto
  rw [if_neg h3]
  by_cases h4 : region c t.addr.toNat ≠ .unmapped ∧ t.addr.toNat % 4 ≠ 0
  · simp only [if_pos h4, reduceCtorEq, false_iff]
    tauto
  rw [if_neg h4]
  by_cases h5 : inOneRegion c t.addr.toNat t.size = false
  · simp [h5]
  rw [if_neg h5]
  simp only [cfamSize] at h2
  simp only [true_iff]
  exact ⟨not_not.1 h1, by omega, fun hr => ⟨by tauto, by tauto⟩, by simpa using h5⟩

/-- An aligned 4-byte transaction is always admitted (R55, R59). -/
theorem reject?_aligned_word {c : Config} (hs : c.sizesOk = true) (h4 : 4 ∈ c.accessSizes) {t : Transaction}
    (hn : t.size = 4) (ha : t.addr.toNat % 4 = 0) : reject? c t = none := by
  have hlt : t.addr.toNat < 2 ^ 21 := t.addr.isLt
  rw [reject?_none_iff, hn]
  exact ⟨h4, by omega, fun _ => ⟨rfl, ha⟩, inOneRegion_aligned hs ha⟩

/-- What the decoder answers: an admitted transaction's row (R101). -/
theorem decode_ok_iff {c : Config} {es : List Engine} {t : Transaction} {i : Instr} :
    decode c es t = .ok i ↔ reject? c t = none ∧ select c es t = i := by
  unfold decode
  split <;> simp_all

theorem decode_error_iff {c : Config} {es : List Engine} {t : Transaction} {r : Reject} :
    decode c es t = .error r ↔ reject? c t = some r := by
  unfold decode
  split <;> simp_all

/-! The row selected in each region. -/

theorem select_rd_cfg {c : Config} {es : List Engine} {a : Addr} {n : Nat} (h : region c a.toNat = .cfg) :
    select c es (.rd a n) = selectCfgRead es a.toNat := by simp [select, h]

theorem select_rd_slave {c : Config} {es : List Engine} {a : Addr} {n : Nat} (h : region c a.toNat = .slave) :
    select c es (.rd a n) = .slvRd (a.toNat - 0x800) := by simp [select, h]

theorem select_rd_lbus {c : Config} {es : List Engine} {a : Addr} {n : Nat} (h : region c a.toNat = .lbus) :
    select c es (.rd a n) = selectLbusRead es (a.toNat - 0xC00) := by simp [select, h]

theorem select_rd_unmapped {c : Config} {es : List Engine} {a : Addr} {n : Nat} (h : region c a.toNat = .unmapped) :
    select c es (.rd a n) = .unmRd a n := by simp [select, h]

theorem select_wr_cfg {c : Config} {es : List Engine} {a : Addr} {n : Nat} {d : BitVec (8 * n)}
    (h : region c a.toNat = .cfg) : select c es (.wr a n d) = selectCfgWrite a.toNat (d.setWidth 32) := by
  simp [select, h]

theorem select_wr_slave {c : Config} {es : List Engine} {a : Addr} {n : Nat} {d : BitVec (8 * n)}
    (h : region c a.toNat = .slave) : select c es (.wr a n d) = .slvWr (a.toNat - 0x800) (d.setWidth 32) := by
  simp [select, h]

theorem select_wr_lbus {c : Config} {es : List Engine} {a : Addr} {n : Nat} {d : BitVec (8 * n)}
    (h : region c a.toNat = .lbus) :
    select c es (.wr a n d) = selectLbusWrite es (a.toNat - 0xC00) (d.setWidth 32) := by simp [select, h]

theorem select_wr_unmapped {c : Config} {es : List Engine} {a : Addr} {n : Nat} {d : BitVec (8 * n)}
    (h : region c a.toNat = .unmapped) : select c es (.wr a n d) = .unmWr a n d := by simp [select, h]

/-- The register unit of an aligned configuration address picks the write row (R84, R130). -/
theorem selectCfgWrite_eq (a : Nat) (d : Word) : selectCfgWrite a d =
    if a / 4 = 0 then .cfgWrChipid d else if a / 4 = 1 then .cfgWrPeek d else .cfgWrOther (a / 4) d := by
  unfold selectCfgWrite regUnit
  rcases a / 4 with _ | _ | u <;> simp

/-! The selection predicates in numbers. -/

theorem hitsScratchpad_iff {es : List Engine} {j r : Nat} : hitsScratchpad es j r = true ↔
    ∃ e : Engine, es[j]? = some e ∧ e.type = .scratchpad ∧ r % 4 = 0 ∧ r < e.winSize := by
  unfold hitsScratchpad
  split <;> simp_all
  next h => intro e he ht; obtain ⟨ty, b, n⟩ := e; subst ht; exact absurd he (h b n)

theorem hitsOther_iff {es : List Engine} {j r : Nat} : hitsOther es j r = true ↔
    ∃ (e : Engine) (t : Nat), es[j]? = some e ∧ e.type = .other t ∧ r % 4 = 0 ∧ r < e.winSize := by
  unfold hitsOther
  split <;> simp_all
  next h => intro e he t ht; obtain ⟨ty, b, n⟩ := e; subst ht; exact absurd he (h t b n)

theorem inHole_iff {c : Config} {es : List Engine} {o : Nat} : inHole c es o = true ↔
    o % 4 = 0 ∧ o < c.lbusSize ∧ windowHit es o = none := by
  simp [inHole, and_assoc]

theorem inUnmapped_iff {c : Config} {a n : Nat} : inUnmapped c a n = true ↔
    n ∈ c.accessSizes ∧ a + n ≤ 0x200000 ∧ region c a = .unmapped ∧ inOneRegion c a n = true := by
  simp only [inUnmapped, Bool.and_eq_true, decide_eq_true_eq, and_assoc]
  rfl

/-- The address of an offset inside a listed engine's window is not wrapped by the 21 bits of `addr` (R87). -/
theorem windowAddr_toNat {c : Config} {es : List Engine} (hs : c.sizesOk = true) (he : enginesOk c es = true)
    {j r : Nat} {e : Engine} (hj : es[j]? = some e) (hr : r < e.winSize) :
    (windowAddr es j r).toNat = 0xC00 + e.winBase + r := by
  have hw := windowOk_of_getElem? he hj
  have := sizesOk_iff.1 hs
  simp only [windowAddr, winBaseAt, hj, lbusBase, BitVec.toNat_ofNat]
  omega

end Sys2Proof
end

