-- ==== Sys2Proof/Laws/Exec.lean ====
section
/-! SUPPORT. Everything a meaning and a step can do. -/

namespace Sys2Proof.Machine

/-- What a meaning may write of the bus (R65, R66), whichever row runs. -/
inductive BusEffect (i : Instr) (s : State) : Bus → Prop where
  | same : BusEffect i s s.bus
  | reset (d : Word) (hi : i = .cfgWrChipid d ∨ i = .cfgWrPeek d) (hd : d = s.cfg.chipIdBreak) :
      BusEffect i s s.bus.coldReset
  | store (j : Nat) (d v : Word) (hi : i = .scrWrData j d) (hv : s.bus.scratch? j = some v) :
      BusEffect i s (s.bus.setInst j (.scratchpad d))
  | otherRead (j r t code : Nat) (hi : i = .lbusRdEng j r) (hv : s.bus.other? j = some (t, code)) :
      BusEffect i s (s.bus.setInst j (.other (Config.otherRead t code r).2))
  | otherWrite (j r t code : Nat) (d : Word) (hi : i = .lbusWrEng j r d) (hv : s.bus.other? j = some (t, code)) :
      BusEffect i s (s.bus.setInst j (.other (Config.otherWrite t code r d)))

/-- None of the effects writes the list (R153, R154). -/
theorem BusEffect.engines {i : Instr} {s : State} {b : Bus} (h : BusEffect i s b) : b.engines = s.bus.engines := by
  cases h <;> rfl

/-- Each effect leaves every engine an instance state of its type (R150). -/
theorem BusEffect.inst {i : Instr} {s : State} {b : Bus} (h : BusEffect i s b)
    (hi : List.Forall₂ instOk s.bus.engines s.bus.inst) : List.Forall₂ instOk b.engines b.inst := by
  cases h with
  | same => exact hi
  | reset _ _ _ => exact forall₂_resetState _
  | store j d v _ hv =>
    refine forall₂_set hi fun e he => ?_
    obtain ⟨i', hi', hok⟩ := inst_of_engine hi he
    rw [Bus.scratch?_some hv] at hi'
    cases hi'
    cases ht : e.type <;> simp_all [instOk]
  | otherRead j r t code _ hv =>
    obtain ⟨⟨e, he, ht⟩, -⟩ := Bus.other?_some hv
    refine forall₂_set hi fun e' he' => ?_
    rw [he] at he'
    cases he'
    simp [instOk, ht]
  | otherWrite j r t code d _ hv =>
    obtain ⟨⟨e, he, ht⟩, -⟩ := Bus.other?_some hv
    refine forall₂_set hi fun e' he' => ?_
    rw [he] at he'
    cases he'
    simp [instOk, ht]

/-- The bus after a meaning is one of the five effects. -/
theorem exec_bus {i : Instr} {s s' : State} (h : exec i s = .next s') : BusEffect i s s'.bus := by
  cases i with
  | cfgWrChipid d =>
    obtain rfl : (s.trigger d).finishWrite = s' := by simpa [exec, execCfgWrChipid] using h
    by_cases hd : d = s.cfg.chipIdBreak
    · simpa [hd] using BusEffect.reset d (.inl rfl) hd
    · simpa [hd] using BusEffect.same
  | cfgWrPeek d =>
    obtain rfl : (s.trigger d).finishWrite = s' := by simpa [exec, execCfgWrPeek] using h
    by_cases hd : d = s.cfg.chipIdBreak
    · simpa [hd] using BusEffect.reset d (.inr rfl) hd
    · simpa [hd] using BusEffect.same
  | cfgRdEngine k =>
    simp only [exec, execCfgRdEngine] at h
    split at h <;> cases h
    exact .same
  | scrRdData j =>
    simp only [exec, execScrRdData] at h
    split at h <;> cases h
    exact .same
  | scrWrData j d =>
    simp only [exec, execScrWrData] at h
    split at h <;> cases h
    next v hv => exact .store j d v rfl hv
  | lbusRdEng j r =>
    simp only [exec, execLbusRdEng] at h
    split at h <;> cases h
    next t code hv => exact .otherRead j r t code rfl hv
  | lbusWrEng j r d =>
    simp only [exec, execLbusWrEng] at h
    split at h <;> cases h
    next t code hv => exact .otherWrite j r t code d rfl hv
  | _ => cases h; exact .same

/-- No meaning changes the configuration, the engine list or the host's queue (R17, R160). -/
theorem exec_frame {i : Instr} {s s' : State} (h : exec i s = .next s') :
    s'.cfg = s.cfg ∧ s'.bus.engines = s.bus.engines ∧ s'.pending = s.pending := by
  refine ⟨?_, ?_, ?_⟩
  · cases i <;> simp only [exec, execCfgRdEngine, execScrRdData, execScrWrData, execLbusRdEng, execLbusWrEng] at h <;>
      first
      | (cases h; rfl)
      | (split at h <;> cases h; rfl)
  · exact (exec_bus h).engines
  · cases i <;> simp only [exec, execCfgRdEngine, execScrRdData, execScrWrData, execLbusRdEng, execLbusWrEng] at h <;>
      first
      | (cases h; rfl)
      | (split at h <;> cases h; rfl)

/-- The width of the value a row returns, none for a row that writes (R80, R89). -/
def readWidth : Instr → Option Nat
  | .cfgRdChipid | .cfgRdPeek | .cfgRdFsi | .cfgRdEngine _ | .cfgRdEnd | .cfgRdBreak _ | .slvRd _ | .scrRdData _
  | .scrRdPad _ _ | .lbusRdEng _ _ | .lbusRdHole _ => some 4
  | .unmRd _ n => some n
  | .cfgWrChipid _ | .cfgWrPeek _ | .cfgWrOther _ _ | .slvWr _ _ | .scrWrData _ _ | .scrWrPad _ _ _ | .lbusWrEng _ _ _
  | .lbusWrHole _ _ | .unmWr _ _ _ => none

/-- A row that completes leaves a reply of its own kind and width (R13). -/
theorem exec_reply {i : Instr} {s s' : State} (h : exec i s = .next s') :
    match readWidth i with
    | some n => ∃ v : BitVec (8 * n), s'.reply = some (.read n v)
    | none => s'.reply = some .written := by
  cases i <;> simp only [exec, execCfgRdEngine, execScrRdData, execScrWrData, execLbusRdEng, execLbusWrEng] at h <;>
    first
    | (cases h; exact ⟨_, rfl⟩)
    | (cases h; rfl)
    | (split at h <;> cases h; exact ⟨_, rfl⟩)
    | (split at h <;> cases h; rfl)

theorem readWidth_selectCfgRead (es : List Engine) (a : Nat) : readWidth (selectCfgRead es a) = some 4 := by
  unfold selectCfgRead
  split_ifs <;> rfl

theorem readWidth_selectCfgWrite (a : Nat) (d : Word) : readWidth (selectCfgWrite a d) = none := by
  rw [selectCfgWrite_eq]
  split_ifs <;> rfl

theorem readWidth_selectLbusRead (es : List Engine) (o : Nat) : readWidth (selectLbusRead es o) = some 4 := by
  unfold selectLbusRead
  split
  · rfl
  · split_ifs <;> rfl
  · rfl

theorem readWidth_selectLbusWrite (es : List Engine) (o : Nat) (d : Word) :
    readWidth (selectLbusWrite es o d) = none := by
  unfold selectLbusWrite
  split
  · rfl
  · split_ifs <;> rfl
  · rfl

/-- An admitted read selects a row that returns a value of its width (R89). -/
theorem readWidth_select_rd {c : Config} (es : List Engine) {a : Addr} {n : Nat} (h : reject? c (.rd a n) = none) :
    readWidth (select c es (.rd a n)) = some n := by
  have h4 : region c a.toNat ≠ .unmapped → n = 4 := fun hr => ((reject?_none_iff.1 h).2.2.1 hr).1
  cases hr : region c a.toNat with
  | cfg => rw [select_rd_cfg hr, readWidth_selectCfgRead, h4 (by simp [hr])]
  | slave => rw [select_rd_slave hr, h4 (by simp [hr]), readWidth]
  | lbus => rw [select_rd_lbus hr, readWidth_selectLbusRead, h4 (by simp [hr])]
  | unmapped => rw [select_rd_unmapped hr, readWidth]

/-- A write selects a row that returns none (R89). -/
theorem readWidth_select_wr (c : Config) (es : List Engine) (a : Addr) (n : Nat) (d : BitVec (8 * n)) :
    readWidth (select c es (.wr a n d)) = none := by
  cases hr : region c a.toNat with
  | cfg => rw [select_wr_cfg hr, readWidth_selectCfgWrite]
  | slave => rw [select_wr_slave hr, readWidth]
  | lbus => rw [select_wr_lbus hr, readWidth_selectLbusWrite]
  | unmapped => rw [select_wr_unmapped hr, readWidth]

/-- What a step does, when it answers a next state. -/
theorem step_next {s s' : State} (h : step s = .next s') :
    (s.pending = [] ∧ s' = s) ∨
    ∃ t rest i, s.pending = t :: rest ∧ decode s.cfg s.bus.engines t = .ok i ∧ exec i (s.accept t rest) = .next s' := by
  unfold step at h
  split at h
  · next hp => exact .inl ⟨hp, by cases h; rfl⟩
  · next t rest hp =>
    split at h
    · cases h
    · next i hd => exact .inr ⟨t, rest, i, hp, hd, h⟩

/-- A step on an issued transaction that decodes runs the row it selects (R101). -/
theorem step_issue {s : State} {t : Transaction} {i : Instr} (h : decode s.cfg s.bus.engines t = .ok i) :
    step (s.issue t) = exec i (s.accept t s.pending) := by
  simp only [step, State.issue, h]
  rfl

/-- A step on an issued transaction outside the admitted interface refuses (R14). -/
theorem step_issue_refused {s : State} {t : Transaction} {r : Reject} (h : reject? s.cfg t = some r) :
    step (s.issue t) = .refused (.notAdmitted r) := by
  simp only [step, State.issue, decode_error_iff.2 h]

/-- A step keeps the configuration and the engine list (R17, R20). -/
theorem step_keeps_layout {s s' : State} (h : step s = .next s') :
    s'.cfg = s.cfg ∧ s'.bus.engines = s.bus.engines := by
  obtain ⟨-, rfl⟩ | ⟨t, rest, i, -, -, hx⟩ := step_next h
  · exact ⟨rfl, rfl⟩
  · exact ⟨(exec_frame hx).1, (exec_frame hx).2.1⟩

end Sys2Proof.Machine
end

