-- ==== Sys2Proof/Laws/PerInstr.lean ====
section
/-! SUPPORT. Facts about every operation as syntax, one lemma per constructor of `Instr`. Family EncodeAdmitted: the
transaction written for an operation whose condition (R89) holds is inside the admitted interface (R102). -/

namespace Sys2Proof.Laws

/-- The transaction of the operation is admitted, in every configuration in which a transaction can select it. -/
def EncodeAdmitted.Statement (i : Instr) : Prop :=
  ∀ (c : Config) (es : List Engine), c.sizesOk = true → enginesOk c es = true → 4 ∈ c.accessSizes →
    i.wf c es = true → reject? c (encode es i) = none

namespace EncodeAdmitted

/-- A slot address is aligned (R85). -/
theorem slot_aligned (k : Nat) : (BitVec.ofNat 21 (slotAddr k)).toNat % 4 = 0 := by
  simp only [BitVec.toNat_ofNat, slotAddr, enumBase, enumStride]
  omega

/-- An offset of a window is aligned in the space when it is aligned in the window (R86). -/
theorem window_aligned {c : Config} {es : List Engine} (hs : c.sizesOk = true) (he : enginesOk c es = true)
    {j r : Nat} {e : Engine} (hj : es[j]? = some e) (h4 : r % 4 = 0) (hr : r < e.winSize) :
    (windowAddr es j r).toNat % 4 = 0 := by
  have hw := windowOk_of_getElem? he hj
  rw [windowAddr_toNat hs he hj hr]
  omega

theorem cfgRdChipid : Statement (.cfgRdChipid) := by
  intro c es hs _ h4 _
  exact reject?_aligned_word hs h4 rfl (by simp [encode])

theorem cfgRdPeek : Statement (.cfgRdPeek) := by
  intro c es hs _ h4 _
  exact reject?_aligned_word hs h4 rfl (by simp [encode])

theorem cfgRdFsi : Statement (.cfgRdFsi) := by
  intro c es hs _ h4 _
  exact reject?_aligned_word hs h4 rfl (by simp [encode])

theorem cfgWrChipid (d : Word) : Statement (.cfgWrChipid d) := by
  intro c es hs _ h4 _
  exact reject?_aligned_word hs h4 rfl (by simp [encode])

theorem cfgWrPeek (d : Word) : Statement (.cfgWrPeek d) := by
  intro c es hs _ h4 _
  exact reject?_aligned_word hs h4 rfl (by simp [encode])

theorem cfgRdEngine (k : Nat) : Statement (.cfgRdEngine k) := by
  intro c es hs _ h4 _
  exact reject?_aligned_word hs h4 rfl (slot_aligned _)

theorem cfgRdBreak (k : Nat) : Statement (.cfgRdBreak k) := by
  intro c es hs _ h4 _
  exact reject?_aligned_word hs h4 rfl (slot_aligned _)

theorem cfgRdEnd : Statement (.cfgRdEnd) := by
  intro c es hs _ h4 _
  exact reject?_aligned_word hs h4 rfl (slot_aligned _)

theorem cfgWrOther (u : Nat) (d : Word) : Statement (.cfgWrOther u d) := by
  intro c es hs _ h4 hw
  simp only [Instr.wf, decide_eq_true_eq] at hw
  refine reject?_aligned_word hs h4 rfl ?_
  simp only [encode, Transaction.addr_wr4, BitVec.toNat_ofNat]
  omega

theorem slvRd (o : Nat) : Statement (.slvRd o) := by
  intro c es hs _ h4 hw
  simp only [Instr.wf, decide_eq_true_eq] at hw
  refine reject?_aligned_word hs h4 rfl ?_
  simp only [encode, Transaction.addr_rd4, BitVec.toNat_ofNat, slaveBase]
  omega

theorem slvWr (o : Nat) (d : Word) : Statement (.slvWr o d) := by
  intro c es hs _ h4 hw
  simp only [Instr.wf, decide_eq_true_eq] at hw
  refine reject?_aligned_word hs h4 rfl ?_
  simp only [encode, Transaction.addr_wr4, BitVec.toNat_ofNat, slaveBase]
  omega

theorem scrRdData (j : Nat) : Statement (.scrRdData j) := by
  intro c es hs he h4 hw
  obtain ⟨e, hj, -, hr, hlt⟩ := hitsScratchpad_iff.1 hw
  exact reject?_aligned_word hs h4 rfl (window_aligned hs he hj hr hlt)

theorem scrRdPad (j r : Nat) : Statement (.scrRdPad j r) := by
  intro c es hs he h4 hw
  simp only [Instr.wf, Bool.and_eq_true] at hw
  obtain ⟨e, hj, -, hr, hlt⟩ := hitsScratchpad_iff.1 hw.1
  exact reject?_aligned_word hs h4 rfl (window_aligned hs he hj hr hlt)

theorem scrWrData (j : Nat) (d : Word) : Statement (.scrWrData j d) := by
  intro c es hs he h4 hw
  obtain ⟨e, hj, -, hr, hlt⟩ := hitsScratchpad_iff.1 hw
  exact reject?_aligned_word hs h4 rfl (window_aligned hs he hj hr hlt)

theorem scrWrPad (j r : Nat) (d : Word) : Statement (.scrWrPad j r d) := by
  intro c es hs he h4 hw
  simp only [Instr.wf, Bool.and_eq_true] at hw
  obtain ⟨e, hj, -, hr, hlt⟩ := hitsScratchpad_iff.1 hw.1
  exact reject?_aligned_word hs h4 rfl (window_aligned hs he hj hr hlt)

theorem lbusRdEng (j r : Nat) : Statement (.lbusRdEng j r) := by
  intro c es hs he h4 hw
  obtain ⟨e, _, hj, -, hr, hlt⟩ := hitsOther_iff.1 hw
  exact reject?_aligned_word hs h4 rfl (window_aligned hs he hj hr hlt)

theorem lbusWrEng (j r : Nat) (d : Word) : Statement (.lbusWrEng j r d) := by
  intro c es hs he h4 hw
  obtain ⟨e, _, hj, -, hr, hlt⟩ := hitsOther_iff.1 hw
  exact reject?_aligned_word hs h4 rfl (window_aligned hs he hj hr hlt)

theorem lbusRdHole (o : Nat) : Statement (.lbusRdHole o) := by
  intro c es hs _ h4 hw
  have ho := inHole_iff.1 hw
  have := sizesOk_iff.1 hs
  refine reject?_aligned_word hs h4 rfl ?_
  simp only [encode, Transaction.addr_rd4, BitVec.toNat_ofNat, lbusBase]
  omega

theorem lbusWrHole (o : Nat) (d : Word) : Statement (.lbusWrHole o d) := by
  intro c es hs _ h4 hw
  have ho := inHole_iff.1 hw
  have := sizesOk_iff.1 hs
  refine reject?_aligned_word hs h4 rfl ?_
  simp only [encode, Transaction.addr_wr4, BitVec.toNat_ofNat, lbusBase]
  omega

theorem unmRd (a : Addr) (n : Nat) : Statement (.unmRd a n) := by
  intro c es _ _ _ hw
  obtain ⟨hn, hle, hreg, hone⟩ := inUnmapped_iff.1 hw
  exact reject?_none_iff.2 ⟨hn, hle, fun h => absurd hreg h, hone⟩

theorem unmWr (a : Addr) (n : Nat) (d : BitVec (8 * n)) : Statement (.unmWr a n d) := by
  intro c es _ _ _ hw
  obtain ⟨hn, hle, hreg, hone⟩ := inUnmapped_iff.1 hw
  exact reject?_none_iff.2 ⟨hn, hle, fun h => absurd hreg h, hone⟩

end EncodeAdmitted

end Sys2Proof.Laws
end

