-- ==== Sys2Proof/Laws/Platform.lean ====
section
/-! SUPPORT. The reset state's configuration meets R8 whatever the platform supplies, and every default configuration
that meets R8 is one it can be. -/

namespace Sys2Proof.Platform

theorem chipIdBreak_ne_zero (w : Word) : chipIdBreak w ≠ 0 := by
  unfold chipIdBreak
  split <;> simp_all

theorem chipId_ne (brk w : Word) : brk ≠ chipId brk w := by
  unfold chipId
  split
  · next h => rw [h]; simp
  · next h => exact Ne.symm h

/-- The identity words meet R8. -/
theorem identityOk_meetR8 (c : Config) : (meetR8 c).identityOk = true := by
  rw [Config.identityOk, Bool.and_eq_true, decide_eq_true_eq, decide_eq_true_eq]
  exact ⟨chipIdBreak_ne_zero _, chipId_ne _ _⟩

theorem layout_ok (l : DescLayout) : (layout l).ok = true := by
  unfold layout
  split
  · assumption
  · decide

/-- The flag's place is a bit of the word (R31). -/
theorem continuation_lt {l : DescLayout} (h : l.ok = true) : l.continuation < 32 := by
  simp only [DescLayout.ok, BitField.placed, Bool.and_eq_true, decide_eq_true_eq] at h
  omega

/-- The descriptor constants meet R8. -/
theorem descriptorOk_meetR8 (c : Config) (w : Word) :
    (meetR8 c).descriptorOk (descriptor (layout c.layout) w) = true := by
  have hn := continuation_lt (layout_ok c.layout)
  have hbit : (descriptor (layout c.layout) w).getLsbD (layout c.layout).continuation = true := by
    simp [descriptor, hn]
  simp only [Config.descriptorOk, DescLayout.continues, meetR8, Bool.and_eq_true, decide_eq_true_eq]
  refine ⟨fun h => ?_, hbit⟩
  rw [h] at hbit
  simp at hbit

theorem scratchWin_bounds (n : Nat) :
    4 ≤ scratchWin n ∧ scratchWin n % 4 = 0 ∧ scratchWin n ≤ 0x1FF400 := by
  unfold scratchWin
  omega

theorem lbusSize_bounds {w : Nat} (h4 : w % 4 = 0) (hle : w ≤ 0x1FF400) (x : Nat) :
    lbusSize w x % 4 = 0 ∧ w ≤ lbusSize w x ∧ 0xC00 + lbusSize w x ≤ 0x200000 := by
  have hm : (x - w) / 4 % ((cfamSize - lbusBase - w) / 4 + 1) < (cfamSize - lbusBase - w) / 4 + 1 :=
    Nat.mod_lt _ (by omega)
  simp only [cfamSize, lbusBase] at hm
  simp only [lbusSize, cfamSize, lbusBase]
  omega

/-- The sizes meet R8. -/
theorem sizesOk_meetR8 (c : Config) : (meetR8 c).sizesOk = true := by
  obtain ⟨h1, h2, h3⟩ := scratchWin_bounds c.scratchWin
  obtain ⟨h4, h5, h6⟩ := lbusSize_bounds h2 h3 c.lbusSize
  rw [sizesOk_iff]
  simp only [meetR8]
  refine ⟨?_, ⟨h4, h6⟩, h1, h2, h5⟩
  unfold slaveSize
  omega

/-- The list of the bootstrap Scratchpad alone meets R8. -/
theorem enginesOk_bootstrap {c : Config} (h : c.sizesOk = true) (hf : c.further = []) :
    enginesOk c c.engines = true := by
  have hs := sizesOk_iff.1 h
  rw [enginesOk_iff]
  simp [Config.engines, hf, Config.bootstrap, Engine.windowOk, windowsDisjoint]
  omega

/-- Whatever the platform supplies, the configuration meets R8. -/
theorem meetR8_wf (c : Config) : (meetR8 c).wf = true := by
  have hs := sizesOk_meetR8 c
  have hl : (meetR8 c).layout.ok = true := layout_ok c.layout
  simp only [Config.wf, Bool.and_eq_true, decide_eq_true_eq]
  exact ⟨⟨⟨⟨⟨⟨⟨identityOk_meetR8 c, hl⟩, descriptorOk_meetR8 c _⟩, descriptorOk_meetR8 c _⟩,
    descriptorOk_meetR8 c _⟩, hs⟩, enginesOk_bootstrap hs rfl⟩, List.mem_cons_self⟩

/-- Setting a flag that is set changes nothing. -/
theorem descriptor_of_continues {l : DescLayout} {w : Word} (h : l.continues w = true) : descriptor l w = w := by
  apply BitVec.eq_of_getLsbD_eq
  intro i hi
  simp only [descriptor, BitVec.getLsbD_or, BitVec.getLsbD_shiftLeft, BitVec.getLsbD_one]
  by_cases hil : i = l.continuation
  · subst hil
    simp only [DescLayout.continues] at h
    simp [h]
  · have : ¬ (¬ i < l.continuation ∧ i - l.continuation = 0) := by omega
    simp only [hi, decide_true, Bool.true_and]
    by_cases hlt : i < l.continuation
    · simp [hlt]
    · have hne : i - l.continuation ≠ 0 := by omega
      simp [hlt, hne]

/-- Nothing is excluded: a default configuration that meets R8 is what the platform gets when it supplies it, but for
the set ACCESS_SIZES listing 4 once more. -/
theorem meetR8_of_wf {c : Config} (h : c.wf = true) (hf : c.further = []) :
    meetR8 c = { c with accessSizes := 4 :: c.accessSizes } := by
  have hw := h
  simp only [Config.wf, Config.identityOk, Config.descriptorOk, Bool.and_eq_true, decide_eq_true_eq] at hw
  obtain ⟨⟨⟨⟨⟨⟨⟨⟨hb, hi⟩, hl⟩, -, hp⟩, -, hfs⟩, -, hsc⟩, hs⟩, -⟩, -⟩ := hw
  obtain ⟨⟨w1, w2, w3⟩, ⟨x1, x2⟩, s1, s2, s3⟩ := sizesOk_iff.1 hs
  have hbrk : chipIdBreak c.chipIdBreak = c.chipIdBreak := if_neg hb
  have hid : chipId c.chipIdBreak c.chipId = c.chipId := if_neg (Ne.symm hi)
  have hlay : layout c.layout = c.layout := if_pos hl
  have hslv : slaveSize c.slaveSize = c.slaveSize := by unfold slaveSize; omega
  have hwin : scratchWin c.scratchWin = c.scratchWin := by unfold scratchWin; omega
  have hlb : lbusSize c.scratchWin c.lbusSize = c.lbusSize := by
    simp only [lbusSize, cfamSize, lbusBase]
    rw [Nat.mod_eq_of_lt (by omega)]
    omega
  obtain ⟨_, _, _, _, _, _, _, _, _, _, _⟩ := c
  simp_all [meetR8, descriptor_of_continues]

end Sys2Proof.Platform
end

