-- ==== Sys2Proof/Laws/View.lean ====
section
/-! SUPPORT. What the view of the address space shows in each region, and what leaves it unchanged. Cite these lemmas:
unfolding `State.wordAt` with `simp` may loop. -/

namespace Sys2Proof.Machine

theorem State.Inv.enginesOk {s : State} (h : s.Inv) : enginesOk s.cfg s.bus.engines = true := by
  rw [h.engines]
  exact (Config.wf_parts h.cfgOk).2.2.2.1

theorem State.Inv.sizesOk {s : State} (h : s.Inv) : s.cfg.sizesOk = true := (Config.wf_parts h.cfgOk).2.2.1

/-- Issuing a transaction keeps the invariant: it writes the host's queue only. -/
theorem State.Inv.issue {s : State} (h : s.Inv) (t : Transaction) : (s.issue t).Inv :=
  ⟨h.cfgOk, h.engines, h.inst⟩

/-- The view is a function of the configuration and the bus (R20). -/
theorem State.wordAt_congr {s s' : State} (hc : s'.cfg = s.cfg) (hb : s'.bus = s.bus) (a : Nat) :
    s'.wordAt a = s.wordAt a := by
  unfold State.wordAt
  rw [hc, hb]

theorem State.byteAt_congr {s s' : State} (hc : s'.cfg = s.cfg) (hb : s'.bus = s.bus) (a : Nat) :
    s'.byteAt a = s.byteAt a := by
  unfold State.byteAt
  rw [State.wordAt_congr hc hb]

theorem State.wordAt_cfg {s : State} {a : Nat} (h : region s.cfg a = .cfg) :
    s.wordAt a = some (cfgRead s.cfg s.bus.engines a) := by
  unfold State.wordAt
  rw [h]

theorem State.wordAt_slave {s : State} {a : Nat} (h : region s.cfg a = .slave) : s.wordAt a = none := by
  unfold State.wordAt
  rw [h]

theorem State.wordAt_lbus {s : State} {a : Nat} (h : region s.cfg a = .lbus) :
    s.wordAt a = s.bus.wordAt (a - 0xC00) := by
  unfold State.wordAt
  rw [h]
  rfl

theorem State.wordAt_unmapped {s : State} {a : Nat} (h : region s.cfg a = .unmapped) : s.wordAt a = some 0 := by
  unfold State.wordAt
  rw [h]

namespace Bus

theorem wordAt_hole {b : Bus} {o : Nat} (h : windowHit b.engines o = none) : b.wordAt o = some 0 := by
  unfold wordAt
  rw [h]

theorem wordAt_scratchpad {b : Bus} {o j base n : Nat} (h : windowHit b.engines o = some (j, ⟨.scratchpad, base, n⟩)) :
    b.wordAt o = if o - base = 0 then b.scratch? j else some 0 := by
  unfold wordAt
  rw [h]

theorem wordAt_other {b : Bus} {o j t base n : Nat} (h : windowHit b.engines o = some (j, ⟨.other t, base, n⟩)) :
    b.wordAt o = (b.other? j).map fun e => (Config.otherRead e.1 e.2 (o - base)).1 := by
  unfold wordAt
  rw [h]

/-- Writing one engine's state leaves every offset outside its window as it was (R157). -/
theorem wordAt_setInst {b : Bus} {j : Nat} {i : InstState} {o : Nat}
    (h : ∀ e, windowHit b.engines o ≠ some (j, e)) : (b.setInst j i).wordAt o = b.wordAt o := by
  cases hh : windowHit b.engines o with
  | none => rw [wordAt_hole hh, wordAt_hole (b := b.setInst j i) hh]
  | some p =>
    obtain ⟨k, type, base, n⟩ := p
    have hk : k ≠ j := by
      rintro rfl
      exact h _ hh
    cases type with
    | scratchpad =>
      rw [wordAt_scratchpad hh, wordAt_scratchpad (b := b.setInst j i) hh]
      simp [scratch?, setInst, hk.symm]
    | other t =>
      rw [wordAt_other hh, wordAt_other (b := b.setInst j i) hh]
      simp [other?, setInst, hk.symm]

end Bus

/-- A Scratchpad window, word by word: the register at its first word, zero after it (R155, R170, R171). -/
theorem State.wordAt_scratchpad {s : State} {j : Nat} {e : Engine} (hI : s.Inv) (hj : s.bus.engines[j]? = some e)
    (ht : e.type = .scratchpad) {a : Nat} (h1 : 0xC00 + e.winBase ≤ a) (h2 : a < 0xC00 + e.winBase + e.winSize) :
    s.wordAt a = if a - 0xC00 - e.winBase = 0 then s.bus.scratch? j else some 0 := by
  have hw := windowOk_of_getElem? hI.enginesOk hj
  have hreg : region s.cfg a = .lbus := by rw [region_lbus]; omega
  have hh := windowHit_of_covers (enginesOk_iff.1 hI.enginesOk).2.2 hj (o := a - 0xC00) (by omega)
  obtain ⟨type, base, n⟩ := e
  obtain rfl : type = .scratchpad := ht
  rw [State.wordAt_lbus hreg, Bus.wordAt_scratchpad hh]

/-- Writing one engine's state leaves every byte outside its window as it was (R157). -/
theorem State.byteAt_setInst {s s' : State} {j : Nat} {e : Engine} {i : InstState} (hI : s.Inv)
    (hj : s.bus.engines[j]? = some e) (hc : s'.cfg = s.cfg) (hb : s'.bus = s.bus.setInst j i) {b : Nat}
    (hout : ¬ (0xC00 + e.winBase ≤ b ∧ b < 0xC00 + e.winBase + e.winSize)) : s'.byteAt b = s.byteAt b := by
  have hw := windowOk_of_getElem? hI.enginesOk hj
  unfold State.byteAt
  congr 1
  cases hreg : region s.cfg (b - b % 4) with
  | cfg =>
    rw [State.wordAt_cfg hreg, State.wordAt_cfg (s := s') (by rw [hc]; exact hreg), hc, hb]
    rfl
  | slave => rw [State.wordAt_slave hreg, State.wordAt_slave (s := s') (by rw [hc]; exact hreg)]
  | unmapped => rw [State.wordAt_unmapped hreg, State.wordAt_unmapped (s := s') (by rw [hc]; exact hreg)]
  | lbus =>
    have hr := region_lbus.1 hreg
    rw [State.wordAt_lbus hreg, State.wordAt_lbus (s := s') (by rw [hc]; exact hreg), hb, Bus.wordAt_setInst]
    intro f hh
    obtain ⟨h1, h2⟩ := windowHit_some hh
    rw [hj] at h1
    cases h1
    omega

/-- The four byte lanes of a word, most significant first (R54). -/
theorem lane_eq (w : Word) : lane w 0 = w.extractLsb' 24 8 ∧ lane w 1 = w.extractLsb' 16 8
    ∧ lane w 2 = w.extractLsb' 8 8 ∧ lane w 3 = w.extractLsb' 0 8 := by
  refine ⟨?_, ?_, ?_, ?_⟩ <;> (apply BitVec.eq_of_toNat_eq; simp [lane])

end Sys2Proof.Machine
end

