-- ==== Sys2Proof/Laws/Step.lean ====
section
/-! SUPPORT. What one step does with an aligned 4-byte transaction, region by region: the lemmas to cite instead of
unfolding `step`, `decode` and `exec`. -/

namespace Sys2Proof.Machine

/-- An aligned `RD4` is admitted in every hub (R55), and runs the row it selects. -/
theorem step_rd4 {s : State} (hc : s.cfg.wf = true) {a : Addr} (h4 : a.toNat % 4 = 0) :
    step (s.issue (.rd4 a)) = exec (select s.cfg s.bus.engines (.rd4 a)) (s.accept (.rd4 a) s.pending) := by
  have hp := Config.wf_parts hc
  exact step_issue (decode_ok_iff.2 ⟨reject?_aligned_word hp.2.2.1 hp.2.2.2.2 rfl h4, rfl⟩)

/-- An aligned `WR4` is admitted in every hub (R55), and runs the row it selects. -/
theorem step_wr4 {s : State} (hc : s.cfg.wf = true) {a : Addr} (d : Word) (h4 : a.toNat % 4 = 0) :
    step (s.issue (.wr4 a d)) = exec (select s.cfg s.bus.engines (.wr4 a d)) (s.accept (.wr4 a d) s.pending) := by
  have hp := Config.wf_parts hc
  exact step_issue (decode_ok_iff.2 ⟨reject?_aligned_word hp.2.2.1 hp.2.2.2.2 rfl h4, rfl⟩)

/-- A step that answers a next state took an admitted transaction. -/
theorem step_issue_next {s s' : State} {t : Transaction} (h : step (s.issue t) = .next s') :
    reject? s.cfg t = none ∧ exec (select s.cfg s.bus.engines t) (s.accept t s.pending) = .next s' := by
  cases hr : reject? s.cfg t with
  | some r => rw [step_issue_refused hr] at h; cases h
  | none => exact ⟨rfl, by rw [← step_issue (decode_ok_iff.2 ⟨hr, rfl⟩)]; exact h⟩

/-- Two slots of the table's base and stride apart (R85). -/
theorem slotAddr_toNat {k : Nat} (hk : k ≤ 252) : (BitVec.ofNat 21 (slotAddr k)).toNat = 0x0C + 4 * k := by
  simp only [BitVec.toNat_ofNat, slotAddr, enumBase, enumStride]
  omega

/-- The six read rows of the region together are `cfg_read` (R126). -/
theorem exec_selectCfgRead (u : State) {a : Nat} (h4 : a % 4 = 0) :
    exec (selectCfgRead u.bus.engines a) u = .next (u.finishWord (cfgRead u.cfg u.bus.engines a)) := by
  unfold selectCfgRead
  by_cases g1 : a = 0
  · simp [g1, exec, execCfgRdChipid, cfgRead]
  by_cases g2 : a = 4
  · simp [g2, exec, execCfgRdPeek, cfgRead]
  by_cases g3 : a = 8
  · simp [g3, exec, execCfgRdFsi, cfgRead]
  rw [cfgRead_slot _ _ (by omega) h4, if_neg g1, if_neg g2, if_neg g3]
  split_ifs with g4 g5
  · simp [exec, execCfgRdEngine, g4]
  · rfl
  · rfl

/-- An aligned read of the Configuration Region (R126). -/
theorem step_cfg_read {s : State} {a : Addr} (hc : s.cfg.wf = true) (hlt : a.toNat < 0x400) (h4 : a.toNat % 4 = 0) :
    step (s.issue (.rd4 a)) =
      .next ((s.accept (.rd4 a) s.pending).finishWord (cfgRead s.cfg s.bus.engines a.toNat)) := by
  rw [step_rd4 hc h4, Transaction.rd4, select_rd_cfg (region_cfg.2 hlt)]
  exact exec_selectCfgRead (s.accept (.rd4 a) s.pending) h4

/-- An aligned write of the Configuration Region (R130). -/
theorem step_cfg_write {s : State} {a : Addr} (d : Word) (hc : s.cfg.wf = true) (hlt : a.toNat < 0x400)
    (h4 : a.toNat % 4 = 0) :
    ∃ s', step (s.issue (.wr4 a d)) = .next s' ∧ s'.reply = some .written ∧ s'.cfg = s.cfg
      ∧ s'.bus = (if (a.toNat / 4 = 0 ∨ a.toNat / 4 = 1) ∧ d = s.cfg.chipIdBreak then s.bus.coldReset else s.bus)
      ∧ s'.slaveLog = s.slaveLog ∧ s'.pending = s.pending := by
  rw [step_wr4 hc d h4, Transaction.wr4, select_wr_cfg (region_cfg.2 hlt), selectCfgWrite_eq]
  by_cases g1 : a.toNat / 4 = 0
  · rw [if_pos g1]
    exact ⟨_, rfl, rfl, rfl, by simp [g1]; rfl, rfl, rfl⟩
  by_cases g2 : a.toNat / 4 = 1
  · rw [if_neg g1, if_pos g2]
    exact ⟨_, rfl, rfl, rfl, by simp [g2]; rfl, rfl, rfl⟩
  · rw [if_neg g1, if_neg g2]
    exact ⟨_, rfl, rfl, rfl, by simp [g1, g2], rfl, rfl⟩

/-- An aligned access to a Scratchpad window (R170 to R173), a read and a write from one state. -/
theorem step_scratchpad {s : State} {a : Addr} {j : Nat} {e : Engine} (hI : s.Inv) (h4 : a.toNat % 4 = 0)
    (hj : s.bus.engines[j]? = some e) (ht : e.type = .scratchpad) (h1 : 0xC00 + e.winBase ≤ a.toNat)
    (h2 : a.toNat < 0xC00 + e.winBase + e.winSize) (d : Word) :
    ∃ v s' t', s.bus.inst[j]? = some (.scratchpad v)
      ∧ step (s.issue (.rd4 a)) = .next s' ∧ s'.bus = s.bus ∧ s'.cfg = s.cfg ∧ s'.slaveLog = s.slaveLog
      ∧ s'.pending = s.pending ∧ s'.reply = some (.read 4 (if a.toNat - 0xC00 - e.winBase = 0 then v else 0))
      ∧ step (s.issue (.wr4 a d)) = .next t' ∧ t'.reply = some .written ∧ t'.cfg = s.cfg ∧ t'.slaveLog = s.slaveLog
      ∧ t'.pending = s.pending
      ∧ t'.bus = if a.toNat - 0xC00 - e.winBase = 0 then s.bus.setInst j (.scratchpad d) else s.bus := by
  have hw := windowOk_of_getElem? hI.enginesOk hj
  have hreg : region s.cfg a.toNat = .lbus := by rw [region_lbus]; omega
  have hh := windowHit_of_covers (enginesOk_iff.1 hI.enginesOk).2.2 hj (o := a.toNat - 0xC00) (by omega)
  obtain ⟨i, hi, hok⟩ := inst_of_engine hI.inst hj
  obtain ⟨type, b, n⟩ := e
  obtain rfl : type = .scratchpad := ht
  cases i with
  | other c => simp [instOk] at hok
  | scratchpad v =>
    have hv := Bus.scratch?_eq hi
    rw [step_rd4 hI.cfgOk h4, step_wr4 hI.cfgOk d h4, Transaction.rd4, Transaction.wr4, select_rd_lbus hreg,
      select_wr_lbus hreg, selectLbusRead, selectLbusWrite, hh]
    simp only at *
    by_cases g : a.toNat - 0xC00 - b = 0
    · simp only [if_pos g]
      refine ⟨v, (s.accept (Transaction.rd a 4) s.pending).finishWord v,
        ((s.accept (Transaction.wr a 4 d) s.pending).setInst j (.scratchpad d)).finishWrite,
        hi, ?_, rfl, rfl, rfl, rfl, rfl, ?_, rfl, rfl, rfl, rfl, rfl⟩
      · simp [exec, execScrRdData, hv]
      · simp [exec, execScrWrData, hv]
    · simp only [if_neg g]
      exact ⟨v, _, _, hi, rfl, rfl, rfl, rfl, rfl, rfl, rfl, rfl, rfl, rfl, rfl, rfl⟩

/-- An aligned access to the window of an engine of another type (R156, R157), a read and a write from one state. -/
theorem step_other {s : State} {a : Addr} {j t : Nat} {e : Engine} (hI : s.Inv) (h4 : a.toNat % 4 = 0)
    (hj : s.bus.engines[j]? = some e) (ht : e.type = .other t) (h1 : 0xC00 + e.winBase ≤ a.toNat)
    (h2 : a.toNat < 0xC00 + e.winBase + e.winSize) (d : Word) :
    ∃ code s' t', s.bus.inst[j]? = some (.other code)
      ∧ step (s.issue (.rd4 a)) = .next s'
      ∧ s'.bus = s.bus.setInst j (.other (Config.otherRead t code (a.toNat - 0xC00 - e.winBase)).2)
      ∧ s'.cfg = s.cfg ∧ s'.slaveLog = s.slaveLog ∧ s'.pending = s.pending
      ∧ s'.reply = some (.read 4 (Config.otherRead t code (a.toNat - 0xC00 - e.winBase)).1)
      ∧ step (s.issue (.wr4 a d)) = .next t' ∧ t'.reply = some .written ∧ t'.cfg = s.cfg ∧ t'.slaveLog = s.slaveLog
      ∧ t'.pending = s.pending
      ∧ t'.bus = s.bus.setInst j (.other (Config.otherWrite t code (a.toNat - 0xC00 - e.winBase) d)) := by
  have hw := windowOk_of_getElem? hI.enginesOk hj
  have hreg : region s.cfg a.toNat = .lbus := by rw [region_lbus]; omega
  have hh := windowHit_of_covers (enginesOk_iff.1 hI.enginesOk).2.2 hj (o := a.toNat - 0xC00) (by omega)
  obtain ⟨i, hi, hok⟩ := inst_of_engine hI.inst hj
  cases i with
  | scratchpad c => simp [instOk, ht] at hok
  | other v =>
    have hv := Bus.other?_eq hj ht hi
    obtain ⟨type, b, n⟩ := e
    obtain rfl : type = .other t := ht
    rw [step_rd4 hI.cfgOk h4, step_wr4 hI.cfgOk d h4, Transaction.rd4, Transaction.wr4, select_rd_lbus hreg,
      select_wr_lbus hreg, selectLbusRead, selectLbusWrite, hh]
    simp only [exec, execLbusRdEng, execLbusWrEng, State.accept_bus, hv]
    exact ⟨v, _,
      ((s.accept (Transaction.wr a 4 d) s.pending).setInst j
        (.other (Config.otherWrite t v (a.toNat - 0xC00 - b) d))).finishWrite,
      hi, rfl, rfl, rfl, rfl, rfl, rfl, by simp, rfl, rfl, rfl, rfl, rfl⟩

/-- A run's first step (Host.Core.run). -/
theorem run_succ {s s' : State} (h : step s = .next s') (n : Nat) :
    Host.Core.run core (n + 1) s = Host.Core.run core n s' := by
  have hs : core.step s = .next s' := h
  simp only [Host.Core.run]
  rw [hs]

end Sys2Proof.Machine
end

