-- ==== Sys2Proof/Tests/Slice0.lean ====
section
/-! SUPPORT. Tests of the definitions, and a witness for every statement with hypotheses. Expected results come from the
spec's own vectors and tables (95_test_vectors.md T1 to T8, V1 to V7, P5; 10_state.md R31, R35); words are written out
bit by bit from the pattern of R81. The five words and the sizes are the suggested ones, from general knowledge and not
from the source (93_implementation_defined.md G1 to G4): no definition of the model uses any of them. -/

namespace Sys2Proof.Tests

open Sys2Proof.Machine

/-- The descriptor layout G2 suggests. -/
def suggestedLayout : DescLayout := ⟨31, ⟨23, 16⟩, ⟨15, 12⟩, ⟨11, 4⟩⟩

/-- The default configuration (R9) with the suggested parameters G1 to G4. -/
def defaultConfig : Config :=
  { chipId := 0xC0022D15, chipIdBreak := 0xC0DE0000, peekDescriptor := 0x8001102C, fsiDescriptor := 0x8001503A
    scratchpadDescriptor := 0x80011067, slaveSize := 0x400, lbusSize := 0x100000, scratchWin := 0x400, further := []
    accessSizes := [1, 2, 4, 8], layout := suggestedLayout }

/-- Program P4's two Scratchpads. -/
def padsConfig : Config := { defaultConfig with further := [⟨.scratchpad, 0x400, 0x400⟩] }

/-- A second Scratchpad and an engine of another type: every row of R89 occurs. -/
def mixedConfig : Config :=
  { defaultConfig with further := [⟨.scratchpad, 0x400, 0x400⟩, ⟨.other 7, 0x800, 0x10⟩] }

/-- The hub of the default configuration with `x[0] = v` (start of the lines of V4 and V6). -/
def holding (v : Word) : State :=
  { State.powerOn defaultConfig with bus := (Bus.construct defaultConfig).setInst 0 (.scratchpad v) }

/-- The three-engine hub after construction. -/
def mixed : State := State.powerOn mixedConfig

/-- The reply a step leaves. -/
def reply? : Result → Option Reply
  | .next s => s.reply
  | .fault _ => none
  | .refused _ => none

/-- `x[j]` after a step. -/
def scratch? (j : Nat) : Result → Option Word
  | .next s => s.bus.scratch? j
  | .fault _ => none
  | .refused _ => none

/-- The accesses delivered to the primary-slave component after a step. -/
def slaveLog : Result → List SlaveAccess
  | .next s => s.slaveLog
  | .fault _ => []
  | .refused _ => []

/-- The reason a step is refused for. -/
def rejected? : Result → Option Reject
  | .refused (.notAdmitted r) => some r
  | .refused _ => none
  | .fault _ => none
  | .next _ => none

/-- A step goes on. -/
def goesOn : Result → Bool
  | .next _ => true
  | .fault _ => false
  | .refused _ => false

theorem next_of_goesOn {r : Result} (h : goesOn r = true) : ∃ s, r = .next s := by
  cases r with
  | next s => exact ⟨s, rfl⟩
  | fault f => cases h
  | refused q => cases h

/-- What a command word, with the data beside it, decodes to in the three-engine hub. -/
def decodeCmd (cmd : BitVec 24) (data : Nat) : Option Instr :=
  match decode mixedConfig mixedConfig.engines (.ofCmd cmd data) with
  | .ok i => some i
  | .error _ => none

/-! ## Smoke tests of WellFormed: each check of R8, R31 and R89 refuses an ill-formed term -/

theorem test_wf_accepts : defaultConfig.wf = true ∧ padsConfig.wf = true ∧ mixedConfig.wf = true := by decide

theorem test_wf_break_zero : { defaultConfig with chipIdBreak := 0 }.wf = false := by decide
theorem test_wf_break_is_chipId : { defaultConfig with chipIdBreak := 0xC0022D15 }.wf = false := by decide
theorem test_wf_peek_flag : { defaultConfig with peekDescriptor := 0x0001102C }.wf = false := by decide
theorem test_wf_fsi_flag : { defaultConfig with fsiDescriptor := 0 }.wf = false := by decide
theorem test_wf_scratchpad_flag : { defaultConfig with scratchpadDescriptor := 0x00011067 }.wf = false := by decide

theorem test_wf_slaveSize : { defaultConfig with slaveSize := 0 }.wf = false
    ∧ { defaultConfig with slaveSize := 0x404 }.wf = false ∧ { defaultConfig with slaveSize := 0x3FE }.wf = false := by
  decide

theorem test_wf_lbusSize : { defaultConfig with lbusSize := 0x1FF404 }.wf = false
    ∧ { defaultConfig with lbusSize := 0x100002 }.wf = false ∧ { defaultConfig with lbusSize := 0x3FC }.wf = false := by
  decide

theorem test_wf_scratchWin : { defaultConfig with scratchWin := 0 }.wf = false
    ∧ { defaultConfig with scratchWin := 6 }.wf = false := by decide

theorem test_wf_windows_overlap : { defaultConfig with further := [⟨.scratchpad, 0x3FC, 8⟩] }.wf = false := by decide
theorem test_wf_window_outside : { defaultConfig with further := [⟨.other 7, 0x100000, 4⟩] }.wf = false := by decide
theorem test_wf_window_misplaced : { defaultConfig with further := [⟨.other 7, 0x402, 4⟩] }.wf = false
    ∧ { defaultConfig with further := [⟨.other 7, 0x400, 0⟩] }.wf = false
    ∧ { defaultConfig with further := [⟨.other 7, 0x400, 6⟩] }.wf = false := by decide
theorem test_wf_access_sizes : { defaultConfig with accessSizes := [1, 2, 8] }.wf = false := by decide

set_option maxRecDepth 4000 in
/-- R8, D13: `1 <= N <= 252`. -/
theorem test_engines_count : enginesOk defaultConfig (List.replicate 253 ⟨.scratchpad, 0, 4⟩) = false
    ∧ enginesOk defaultConfig [] = false := by decide

theorem test_layout_overlap : DescLayout.ok ⟨31, ⟨23, 16⟩, ⟨16, 12⟩, ⟨11, 4⟩⟩ = false
    ∧ DescLayout.ok ⟨20, ⟨23, 16⟩, ⟨15, 12⟩, ⟨11, 4⟩⟩ = false := by decide
theorem test_layout_nibble : DescLayout.ok ⟨31, ⟨23, 16⟩, ⟨15, 12⟩, ⟨11, 3⟩⟩ = false
    ∧ DescLayout.ok ⟨32, ⟨23, 16⟩, ⟨15, 12⟩, ⟨11, 4⟩⟩ = false := by decide

/-- The operands no transaction can select (R89), in the three-engine hub. -/
theorem test_instr_wf_refuses :
    (Instr.cfgRdEngine 3).wf mixedConfig mixedConfig.engines = false
    ∧ (Instr.cfgRdBreak 3).wf mixedConfig mixedConfig.engines = false
    ∧ (Instr.cfgRdBreak 253).wf mixedConfig mixedConfig.engines = false
    ∧ (Instr.cfgWrOther 1 0).wf mixedConfig mixedConfig.engines = false
    ∧ (Instr.cfgWrOther 256 0).wf mixedConfig mixedConfig.engines = false
    ∧ (Instr.slvRd 0x400).wf mixedConfig mixedConfig.engines = false
    ∧ (Instr.slvWr 2 0).wf mixedConfig mixedConfig.engines = false := by decide

theorem test_instr_wf_refuses_bus :
    (Instr.scrRdData 2).wf mixedConfig mixedConfig.engines = false
    ∧ (Instr.scrRdPad 0 0).wf mixedConfig mixedConfig.engines = false
    ∧ (Instr.scrWrData 3 0).wf mixedConfig mixedConfig.engines = false
    ∧ (Instr.scrWrPad 1 0x400 0).wf mixedConfig mixedConfig.engines = false
    ∧ (Instr.lbusRdEng 1 0).wf mixedConfig mixedConfig.engines = false
    ∧ (Instr.lbusWrEng 2 0x10 0).wf mixedConfig mixedConfig.engines = false
    ∧ (Instr.lbusRdHole 0x80C).wf mixedConfig mixedConfig.engines = false
    ∧ (Instr.lbusWrHole 0x100000 0).wf mixedConfig mixedConfig.engines = false
    ∧ (Instr.unmRd 0x7FD 4).wf mixedConfig mixedConfig.engines = false
    ∧ (Instr.unmWr 0x400 3 0).wf mixedConfig mixedConfig.engines = false := by decide

set_option maxRecDepth 4000 in
theorem test_instr_wf_total :
    Instr.cfgRdEnd.wf mixedConfig (List.replicate 253 ⟨.scratchpad, 0, 4⟩) = false := by
  decide

/-! ## Decoding: one word or more for each row of the table, from the pattern `w ss a{21}` of R81 -/

theorem test_decode_cfg_reads :
    decodeCmd 0b010000000000000000000000#24 0 = some .cfgRdChipid
    ∧ decodeCmd 0b010000000000000000000100#24 0 = some .cfgRdPeek
    ∧ decodeCmd 0b010000000000000000001000#24 0 = some .cfgRdFsi
    ∧ decodeCmd 0b010000000000000000001100#24 0 = some (.cfgRdEngine 0)
    ∧ decodeCmd 0b010000000000000000010100#24 0 = some (.cfgRdEngine 2)
    ∧ decodeCmd 0b010000000000000000011000#24 0 = some .cfgRdEnd
    ∧ decodeCmd 0b010000000000000000011100#24 0 = some (.cfgRdBreak 4)
    ∧ decodeCmd 0b010000000000001111111100#24 0 = some (.cfgRdBreak 252) := by decide

theorem test_decode_cfg_writes :
    decodeCmd 0b110000000000000000000000#24 0xC0DE0000 = some (.cfgWrChipid 0xC0DE0000)
    ∧ decodeCmd 0b110000000000000000000100#24 0x8001102C = some (.cfgWrPeek 0x8001102C)
    ∧ decodeCmd 0b110000000000000000001000#24 0x12345678 = some (.cfgWrOther 2 0x12345678)
    ∧ decodeCmd 0b110000000000001111111100#24 0xFFFFFFFF = some (.cfgWrOther 255 0xFFFFFFFF) := by decide

theorem test_decode_slave :
    decodeCmd 0b010000000000100000000000#24 0 = some (.slvRd 0)
    ∧ decodeCmd 0b010000000000101111111100#24 0 = some (.slvRd 0x3FC)
    ∧ decodeCmd 0b110000000000100000000100#24 5 = some (.slvWr 4 5) := by decide

set_option maxRecDepth 20000 in
theorem test_decode_scratchpad :
    decodeCmd 0b010000000000110000000000#24 0 = some (.scrRdData 0)
    ∧ decodeCmd 0b010000000000110000000100#24 0 = some (.scrRdPad 0 4)
    ∧ decodeCmd 0b110000000001000000000000#24 0xDEADBEEF = some (.scrWrData 1 0xDEADBEEF)
    ∧ decodeCmd 0b110000000001001111111100#24 9 = some (.scrWrPad 1 0x3FC 9) := by decide

theorem test_decode_bus :
    decodeCmd 0b010000000001010000000000#24 0 = some (.lbusRdEng 2 0)
    ∧ decodeCmd 0b110000000001010000001100#24 7 = some (.lbusWrEng 2 0xC 7)
    ∧ decodeCmd 0b010000000001010000010000#24 0 = some (.lbusRdHole 0x810)
    ∧ decodeCmd 0b110100000000101111111100#24 7 = some (.lbusWrHole 0xFFFFC 7) := by decide

theorem test_decode_unmapped :
    decodeCmd 0b000000000000010000000000#24 0 = some (.unmRd 0x400 1)
    ∧ decodeCmd 0b001000000000011111111110#24 0 = some (.unmRd 0x7FE 2)
    ∧ decodeCmd 0b010000000000011111111001#24 0 = some (.unmRd 0x7F9 4)
    ∧ decodeCmd 0b011000000000011111111000#24 0 = some (.unmRd 0x7F8 8)
    ∧ decodeCmd 0b010111111111111111111100#24 0 = some (.unmRd 0x1FFFFC 4)
    ∧ decodeCmd 0b111000000000010000000000#24 0x0123456789ABCDEF = some (.unmWr 0x400 8 0x0123456789ABCDEF) := by
  decide

/-- V2: the refusals beside admitted neighbours. -/
theorem test_decode_refuses :
    decodeCmd 0b001000000000000000000000#24 0 = none ∧ decodeCmd 0b010000000000000000000010#24 0 = none
    ∧ decodeCmd 0b100000000000000000000000#24 0 = none ∧ decodeCmd 0b111000000000000000000000#24 0 = none
    ∧ decodeCmd 0b000000000000110000000000#24 0 = none ∧ decodeCmd 0b010000000000110000000010#24 0 = none
    ∧ decodeCmd 0b001000000000100000000000#24 0 = none ∧ decodeCmd 0b011000000000011111111100#24 0 = none
    ∧ decodeCmd 0b010000000000011111111101#24 0 = none ∧ decodeCmd 0b010111111111111111111110#24 0 = none := by
  decide

/-- R57 (a): `RD3 0x400` of V2, by name. -/
theorem test_refuses_width_three :
    rejected? (step (mixed.issue (.rd 0x400 3))) = some .sizeNotInAccessSizes := by decide

/-- R81: the command words of `RD1`, `RD2`, `RD4`, `RD8`, `WR1`, `WR2`, `WR4`, `WR8` at 0x123 (95, conventions). -/
theorem test_command_words :
    [Transaction.rd 0x123 1, .rd 0x123 2, .rd 0x123 4, .rd 0x123 8, .wr 0x123 1 0, .wr 0x123 2 0, .wr 0x123 4 0,
      .wr 0x123 8 0].map Transaction.cmd?
    = [some 0x000123#24, some 0x200123#24, some 0x400123#24, some 0x600123#24, some 0x800123#24, some 0xA00123#24,
      some 0xC00123#24, some 0xE00123#24] := by decide

/-! ## One step each -/

/-- T4, and V3's column N = 1, in the hub right after power-on. -/
theorem test_cfg_reads :
    reply? (step ((holding 0).issue (.rd4 0x000))) = some (.read 4 0xC0022D15)
    ∧ reply? (step ((holding 0).issue (.rd4 0x004))) = some (.read 4 0x8001102C)
    ∧ reply? (step ((holding 0).issue (.rd4 0x008))) = some (.read 4 0x8001503A)
    ∧ reply? (step ((holding 0).issue (.rd4 0x00C))) = some (.read 4 0x80011067)
    ∧ reply? (step ((holding 0).issue (.rd4 0x010))) = some (.read 4 0)
    ∧ reply? (step ((holding 0).issue (.rd4 0x014))) = some (.read 4 0xC0DE0000)
    ∧ reply? (step ((holding 0).issue (.rd4 0x3FC))) = some (.read 4 0xC0DE0000) := by decide

/-- V4: the cold reset happens at 0x000 and 0x004 with the sentinel, and nowhere else. -/
theorem test_cfg_writes :
    scratch? 0 (step ((holding 0xFF).issue (.wr4 0x000 0xC0DE0000))) = some 0
    ∧ scratch? 0 (step ((holding 0xFF).issue (.wr4 0x004 0xC0DE0000))) = some 0
    ∧ scratch? 0 (step ((holding 0xFF).issue (.wr4 0x008 0xC0DE0000))) = some 0xFF
    ∧ scratch? 0 (step ((holding 0xFF).issue (.wr4 0x3FC 0xC0DE0000))) = some 0xFF
    ∧ scratch? 0 (step ((holding 0xFF).issue (.wr4 0x000 0xC0DE0001))) = some 0xFF
    ∧ scratch? 0 (step ((holding 0xFF).issue (.wr4 0x000 0x40DE0000))) = some 0xFF
    ∧ scratch? 0 (step ((holding 0xFF).issue (.wr4 0x004 0x8001102C))) = some 0xFF := by decide

/-- V1: the sentinel written outside the Configuration Region resets nothing. -/
theorem test_sentinel_elsewhere :
    scratch? 0 (step ((holding 0xFF).issue (.wr4 0x400 0xC0DE0000))) = some 0xFF
    ∧ scratch? 0 (step ((holding 0xFF).issue (.wr4 0x800 0xC0DE0000))) = some 0xFF
    ∧ scratch? 0 (step ((holding 0xFF).issue (.wr4 0x1000 0xC0DE0000))) = some 0xFF
    ∧ scratch? 0 (step ((holding 0xFF).issue (.wr4 0xC00 0xC0DE0000))) = some 0xC0DE0000 := by decide

/-- V6, line by line: the register and its padding. -/
theorem test_scratchpad :
    scratch? 0 (step ((holding 0).issue (.wr4 0xC00 0xFFFFFFFF))) = some 0xFFFFFFFF
    ∧ reply? (step ((holding 0x80000000).issue (.rd4 0xC00))) = some (.read 4 0x80000000)
    ∧ reply? (step ((holding 0xFFFFFFFF).issue (.rd4 0xC04))) = some (.read 4 0)
    ∧ scratch? 0 (step ((holding 0xFFFFFFFF).issue (.wr4 0xC04 0x12345678))) = some 0xFFFFFFFF
    ∧ reply? (step ((holding 0x12345678).issue (.rd4 0xFFC))) = some (.read 4 0) := by decide

/-- P4, lines 5 and 6: two Scratchpads hold independent words. -/
theorem test_two_scratchpads :
    scratch? 1 (step (mixed.issue (.wr4 0x1000 0x22222222))) = some 0x22222222
    ∧ scratch? 0 (step (mixed.issue (.wr4 0x1000 0x22222222))) = some 0 := by decide

/-- V5: an access to another type's window leaves the Scratchpads alone. -/
theorem test_other_engine :
    scratch? 1 (step (mixed.issue (.wr4 0x1400 0xC0DE0000))) = some 0
    ∧ goesOn (step (mixed.issue (.rd4 0x140C))) = true := by decide

/-- V1, V5: holes and unmapped space read zero of their width. -/
theorem test_zero_reads :
    reply? (step ((holding 0xFF).issue (.rd4 0x1000))) = some (.read 4 0)
    ∧ reply? (step ((holding 0xFF).issue (.rd4 0x100BFC))) = some (.read 4 0)
    ∧ reply? (step ((holding 0xFF).issue (.rd4 0x100C00))) = some (.read 4 0)
    ∧ reply? (step ((holding 0xFF).issue (.rd 0x400 1))) = some (.read 1 0)
    ∧ reply? (step ((holding 0xFF).issue (.rd 0x7F8 8))) = some (.read 8 0) := by decide

/-- R106, R107: the primary-slave window is reached at its own offsets. -/
theorem test_slave_delivery :
    slaveLog (step ((holding 0).issue (.wr4 0xBFC 0x12345678))) = [.write 0x3FC 0x12345678]
    ∧ slaveLog (step ((holding 0).issue (.rd4 0x800))) = [.read 0] := by decide

/-- R201: what CFG.WR.OTHER names in its own event. -/
theorem test_unrecognised_write_event (s : State) :
    exec (.cfgWrOther 2 5) s = .next (s.offer (.unrecognisedWrite 8 4 5)).finishWrite := rfl

/-- T8: the slots of two engines; V5: an attach moves no earlier slot. -/
theorem test_enumerate :
    (Bus.construct padsConfig).enumerate = [(0x0C, ⟨.scratchpad, 0, 0x400⟩), (0x10, ⟨.scratchpad, 0x400, 0x400⟩)]
    ∧ ((Bus.construct padsConfig).attach ⟨.scratchpad, 0x800, 4⟩).enumerate =
      [(0x0C, ⟨.scratchpad, 0, 0x400⟩), (0x10, ⟨.scratchpad, 0x400, 0x400⟩), (0x14, ⟨.scratchpad, 0x800, 4⟩)] := by
  decide

/-- R31 with G2 and G3: the five fields of the suggested Scratchpad descriptor. -/
theorem test_descriptor_fields :
    suggestedLayout.continues 0x80011067 = true ∧ suggestedLayout.slotCount.get 0x80011067 = 1
    ∧ suggestedLayout.version.get 0x80011067 = 1 ∧ suggestedLayout.typeTag.get 0x80011067 = 0x06
    ∧ DescLayout.integrity 0x80011067 = 7 ∧ suggestedLayout.version.get 0x8001503A = 5 := by decide

/-- R54: the byte lanes of the Scratchpad's word. -/
theorem test_lanes :
    [0xC00, 0xC01, 0xC02, 0xC03, 0xC04].map (holding 0xDEADBEEF).byteAt
      = [some 0xDE, some 0xAD, some 0xBE, some 0xEF, some 0] := by decide

/-- R213: no hub from a configuration that does not meet R8. -/
theorem test_no_hub : State.powerOn? { defaultConfig with chipIdBreak := 0 } = none := rfl

/-- The reset machine runs a table word as its next transaction, whatever the platform supplies: R212's reads, the
primary-slave window's first word, and the first unmapped word. -/
theorem test_reset_runs :
    reply? (step (State.reset.withFetchWord 24 0x400C00)) = some (.read 4 0)
    ∧ reply? (step (State.reset.withFetchWord 24 0x400010)) = some (.read 4 0)
    ∧ goesOn (step (State.reset.withFetchWord 24 0x400800)) = true
    ∧ reply? (step (State.reset.withFetchWord 24 0x400400)) = some (.read 4 0) := by decide

/-- What the platform supplies is changed only where R8 forbids it: the suggested values stand, a bad one does not. -/
theorem test_platform_meets_R8 :
    Platform.meetR8 defaultConfig = { defaultConfig with accessSizes := [4, 1, 2, 4, 8] }
    ∧ Platform.slaveSize 0x400 = 0x400 ∧ Platform.slaveSize 4 = 4 ∧ Platform.slaveSize 0x404 = 4
    ∧ Platform.lbusSize 0x400 0x1FF400 = 0x1FF400 ∧ Platform.lbusSize 0x400 0x400 = 0x400
    ∧ Platform.chipIdBreak 0 = 1 := by decide

/-! ## Witnesses: for each statement with hypotheses, a state and operands that meet them together -/

/-- The default hub meets the invariant (R154). -/
theorem holding_inv (v : Word) : (holding v).Inv :=
  ⟨test_wf_accepts.1, rfl, .cons trivial .nil⟩

/-- The three-engine hub meets the invariant (R154). -/
theorem mixed_inv : mixed.Inv :=
  ⟨by decide, rfl, .cons trivial (.cons trivial (.cons trivial .nil))⟩

/-- The sizes and the list of the three-engine hub meet R8. -/
theorem mixed_sizes : mixedConfig.sizesOk = true ∧ enginesOk mixedConfig mixedConfig.engines = true
    ∧ 4 ∈ mixedConfig.accessSizes := by decide

theorem witness_DecodeOfEncode :
    mixedConfig.sizesOk = true ∧ enginesOk mixedConfig mixedConfig.engines = true ∧ 4 ∈ mixedConfig.accessSizes
    ∧ (Instr.cfgRdBreak 252).wf mixedConfig mixedConfig.engines = true
    ∧ (Instr.scrRdPad 1 0x3FC).wf mixedConfig mixedConfig.engines = true
    ∧ (Instr.lbusWrEng 2 0xC 7).wf mixedConfig mixedConfig.engines = true
    ∧ (Instr.unmRd 0x7F8 8).wf mixedConfig mixedConfig.engines = true := by decide

theorem witness_EncodeOfDecode :
    mixedConfig.sizesOk = true ∧ enginesOk mixedConfig mixedConfig.engines = true
    ∧ decode mixedConfig mixedConfig.engines (.rd 0x7F8 8) = .ok (.unmRd 0x7F8 8) :=
  ⟨mixed_sizes.1, mixed_sizes.2.1, rfl⟩

theorem witness_CommandWordFields : (Transaction.wr 0x1FFFF8 8 7).cmd? = some 0xFFFFF8#24 := by decide

theorem witness_AdmittedExactlyWhen :
    reject? mixedConfig (.rd4 0x3FC) = none ∧ reject? mixedConfig (.rd 0x1FFFFE 2) = none
    ∧ reject? mixedConfig (.rd 0x7FC 8) = some .bytesInTwoRegions := by decide

theorem witness_MappedWidthOrAlignmentRefused :
    region mixed.cfg (Transaction.rd 0xC00 1).addr.toNat ≠ .unmapped ∧ (Transaction.rd 0xC00 1).size ≠ 4
    ∧ region mixed.cfg (Transaction.rd4 0x3FE).addr.toNat ≠ .unmapped
    ∧ (Transaction.rd4 0x3FE).addr.toNat % 4 ≠ 0 := by decide

theorem witness_OutsideInterfaceRefused :
    (Transaction.rd 0x400 3).size ∉ mixed.cfg.accessSizes
    ∧ 0x200000 < (Transaction.rd4 0x1FFFFE).addr.toNat + (Transaction.rd4 0x1FFFFE).size
    ∧ (∃ n < (Transaction.rd4 0x7FD).size, region mixed.cfg ((Transaction.rd4 0x7FD).addr.toNat + n)
        ≠ region mixed.cfg (Transaction.rd4 0x7FD).addr.toNat)
    ∧ region mixed.cfg (Transaction.rd4 0x3FC).addr.toNat ≠ .unmapped ∧ mixed.cfg.sizesOk = true := by decide

/-- TableWordsDecode, each conditional clause too: a default configuration with padding, a hole and 2-byte accesses. -/
theorem witness_TableWordsDecode : defaultConfig.wf = true ∧ defaultConfig.further = []
    ∧ 4 < defaultConfig.scratchWin ∧ defaultConfig.scratchWin = 0x400 ∧ 0x400 < defaultConfig.lbusSize
    ∧ 2 ∈ defaultConfig.accessSizes := by decide

/-- TwoOutcomesOnly, both clauses: an admitted read of eight bytes, and a refused one across two regions. -/
theorem witness_TwoOutcomesOnly :
    (mixed.issue (.rd 0x7F8 8)).Inv ∧ (mixed.issue (.rd 0x7F8 8)).pending = [.rd 0x7F8 8]
    ∧ reject? mixed.cfg (.rd 0x7F8 8) = none ∧ reject? mixed.cfg (.rd 0x7FC 8) = some .bytesInTwoRegions :=
  ⟨mixed_inv.issue _, rfl, by decide⟩

theorem witness_StepRunsDecodedRow :
    (mixed.issue (.rd4 0x010)).pending = [.rd4 0x010]
    ∧ decode mixed.cfg mixed.bus.engines (.rd4 0x010) = .ok (.cfgRdEngine 1) := ⟨rfl, rfl⟩

theorem witness_IdleStepChangesNothing : State.reset.pending = [] := rfl

theorem witness_TransactionsTakenInOrder : ∃ s', step (mixed.issue (.rd4 0x1400)) = .next s' :=
  next_of_goesOn (by decide)

theorem witness_NoStepChangesTheEngineList : ∃ s', step (mixed.issue (.wr4 0x1400 7)) = .next s' :=
  next_of_goesOn (by decide)

theorem witness_EveryStepKeepsInvariant :
    (mixed.issue (.wr4 0x004 0xC0DE0000)).Inv
    ∧ ∃ s', step (mixed.issue (.wr4 0x004 0xC0DE0000)) = .next s' :=
  ⟨mixed_inv.issue _, next_of_goesOn (by decide)⟩

theorem witness_ConstructionMeetsInvariant : mixedConfig.wf = true := by decide

theorem witness_AdmittedRunNeverStops :
    ((mixed.issue (.rd 0x7F8 8)).issue (.wr4 0x1000 7)).Inv
    ∧ ((mixed.issue (.rd 0x7F8 8)).issue (.wr4 0x1000 7)).Ready := by
  refine ⟨(mixed_inv.issue _).issue _, ?_⟩
  show ∀ t ∈ [Transaction.wr4 0x1000 7, Transaction.rd 0x7F8 8], reject? mixedConfig t = none
  decide

theorem witness_SelectedRowCompletes :
    mixed.Inv ∧ (Instr.lbusRdEng 2 0xC).wf mixed.cfg mixed.bus.engines = true
    ∧ (Instr.scrRdData 1).wf mixed.cfg mixed.bus.engines = true := ⟨mixed_inv, by decide⟩

theorem witness_EngineDescriptorReadResult :
    mixed.bus.engines[2]? = some ⟨.other 7, 0x800, 0x10⟩ ∧ mixed.bus.engines[3]? = none := by decide

theorem witness_TriggerWriteResults :
    (0xC0DE0000 : Word) = mixed.cfg.chipIdBreak ∧ (0xC0DE0001 : Word) ≠ mixed.cfg.chipIdBreak := by decide

theorem witness_ScratchpadDataResults :
    mixed.bus.inst[1]? = some (.scratchpad 0) ∧ ∀ v, mixed.bus.inst[2]? ≠ some (.scratchpad v) :=
  ⟨rfl, fun _ h => by cases h⟩

theorem witness_OtherEngineResults :
    mixed.bus.engines[2]? = some ⟨.other 7, 0x800, 0x10⟩ ∧ Engine.type ⟨.other 7, 0x800, 0x10⟩ = .other 7
    ∧ mixed.bus.inst[2]? = some (.other (Config.otherReset 7)) := ⟨rfl, rfl, rfl⟩

theorem witness_RowsThatStoreNothing :
    ∃ s', exec (.scrWrPad 0 4 7) mixed = .next s' ∧ ∀ d, Instr.scrWrPad 0 4 7 ≠ .cfgWrChipid d :=
  ⟨_, rfl, fun _ h => by cases h⟩

/-- ConfigReadIsTheWalk, each clause at its boundary: the three fixed words, the first slot, the last engine's slot, the
marker, the first word beyond it, and the last word of the region. -/
theorem witness_ConfigReadIsTheWalk :
    mixed.cfg.wf = true ∧ mixed.bus.engines[(0x00C - 0x0C) / 4]? = some ⟨.scratchpad, 0, 0x400⟩
    ∧ mixed.bus.engines[(0x014 - 0x0C) / 4]? = some ⟨.other 7, 0x800, 0x10⟩
    ∧ (0x018 - 0x0C) / 4 = mixed.bus.engines.length ∧ mixed.bus.engines.length < (0x01C - 0x0C) / 4
    ∧ mixed.bus.engines.length < (0x3FC - 0x0C) / 4 := by decide

theorem witness_OneEndMarkerThenSentinel :
    (holding 0).cfg.wf = true ∧ (∀ e ∈ (holding 0).bus.engines, e.type.desc (holding 0).cfg ≠ 0)
    ∧ (0x010 : Addr).toNat = 0x0C + 4 * (holding 0).bus.engines.length
    ∧ 0x0C + 4 * (holding 0).bus.engines.length < (0x014 : Addr).toNat := by decide

theorem witness_ConfigWriteTriggersOnlyOnSentinel :
    mixed.cfg.wf = true ∧ (0x004 : Addr).toNat / 4 = 1 ∧ (0x3FC : Addr).toNat < 0x400
    ∧ (0x3FC : Addr).toNat % 4 = 0 := by decide

theorem witness_ConfigurationWordsNeverChange : ∃ s', Host.Core.run core 1 (mixed.issue (.wr4 0x000 7)) = .next s' := by
  obtain ⟨s', h⟩ := next_of_goesOn (r := step (mixed.issue (.wr4 0x000 7))) (by decide)
  exact ⟨s', run_succ h 0⟩

theorem witness_DescriptorReadDependsOnTypeAlone :
    mixed.cfg.wf = true ∧ mixed.bus.engines[0]? = some ⟨.scratchpad, 0, 0x400⟩
    ∧ mixed.bus.engines[1]? = some ⟨.scratchpad, 0x400, 0x400⟩
    ∧ ((mixed.setInst 0 (.scratchpad 9)).cfg = mixed.cfg)
    ∧ (mixed.setInst 0 (.scratchpad 9)).bus.engines = mixed.bus.engines := by decide

theorem witness_DescriptorsKeepTheContinuationFlag :
    mixed.Inv ∧ mixed.bus.engines[1]? = some ⟨.scratchpad, 0x400, 0x400⟩ := ⟨mixed_inv, rfl⟩

theorem witness_ScanFindsEveryEngine :
    (holding 5).Inv ∧ ∀ e ∈ (holding 5).bus.engines, e.type.desc (holding 5).cfg ≠ 0 := ⟨holding_inv 5, by decide⟩

/-- AtMostOneEngineHit, at the first and the last offset of a window. -/
theorem witness_AtMostOneEngineHit :
    enginesOk mixedConfig mixedConfig.engines = true
    ∧ mixedConfig.engines[2]? = some ⟨.other 7, 0x800, 0x10⟩ ∧ Engine.covers ⟨.other 7, 0x800, 0x10⟩ 0x800 = true
    ∧ Engine.covers ⟨.other 7, 0x800, 0x10⟩ 0x80F = true := by decide

/-- SecondaryBusDispatch, each clause at its boundary: a Scratchpad's first and last word, the other engine's first and
last word, the first and the last hole. -/
theorem witness_SecondaryBusDispatch :
    mixed.Inv ∧ (0x100BFC : Addr).toNat < 0xC00 + mixed.cfg.lbusSize
    ∧ windowHit mixed.bus.engines (0xC00 - 0xC00) = some (0, ⟨.scratchpad, 0, 0x400⟩)
    ∧ windowHit mixed.bus.engines (0xFFC - 0xC00) = some (0, ⟨.scratchpad, 0, 0x400⟩)
    ∧ windowHit mixed.bus.engines (0x1400 - 0xC00) = some (2, ⟨.other 7, 0x800, 0x10⟩)
    ∧ windowHit mixed.bus.engines (0x140C - 0xC00) = some (2, ⟨.other 7, 0x800, 0x10⟩)
    ∧ windowHit mixed.bus.engines (0x1410 - 0xC00) = none
    ∧ windowHit mixed.bus.engines (0x100BFC - 0xC00) = none := ⟨mixed_inv, by decide⟩

theorem witness_OtherEngineAccessFrame :
    mixed.Inv ∧ mixed.bus.engines[2]? = some ⟨.other 7, 0x800, 0x10⟩
    ∧ (∃ s', step (mixed.issue (.rd4 0x140C)) = .next s') ∧ ∃ s', step (mixed.issue (.wr4 0x1400 7)) = .next s' :=
  ⟨mixed_inv, rfl, next_of_goesOn (by decide), next_of_goesOn (by decide)⟩

theorem witness_ScratchpadHoldsLastWordUntilReset :
    mixed.Inv ∧ mixed.bus.engines[1]? = some ⟨.scratchpad, 0x400, 0x400⟩
    ∧ (∀ t ∈ [Transaction.wr4 0xC00 9, .rd 0x7F8 8], reject? mixed.cfg t = none)
    ∧ (∀ t ∈ [Transaction.wr4 0xC00 9, .rd 0x7F8 8], ∀ d, t ≠ .wr4 (windowAddr mixed.bus.engines 1 0) d)
    ∧ ∀ t ∈ [Transaction.wr4 0xC00 9, .rd 0x7F8 8],
        t ≠ .wr4 0x000 mixed.cfg.chipIdBreak ∧ t ≠ .wr4 0x004 mixed.cfg.chipIdBreak := by
  have hr : windowAddr mixed.bus.engines 1 0 = 0x1000 := rfl
  refine ⟨mixed_inv, rfl, by decide, ?_, by decide⟩
  rw [hr]
  intro t ht d
  fin_cases ht <;> simp [Transaction.wr4]

theorem witness_ScratchpadStoreFrame : (holding 0xFF).Inv
    ∧ (holding 0xFF).bus.engines[0]? = some ⟨.scratchpad, 0, 0x400⟩ := ⟨holding_inv 0xFF, rfl⟩

theorem witness_ByteLanesAreBigEndian : (holding 0xDEADBEEF).wordAt 0xC00 = some 0xDEADBEEF := by decide

theorem witness_ColdResetIsPowerOnState : (holding 0xFF).Inv := holding_inv 0xFF

theorem witness_ColdResetClearsScratchpadsAndNothingOutsideWindows :
    mixed.Inv ∧ ⟨.scratchpad, 0x400, 0x400⟩ ∈ mixed.bus.engines
    ∧ ∀ e ∈ mixed.bus.engines, ¬ (0xC00 + e.winBase ≤ 0x1410 ∧ 0x1410 < 0xC00 + e.winBase + e.winSize) :=
  ⟨mixed_inv, by decide⟩

theorem witness_EffectiveWritesAreIdempotent :
    mixed.Inv ∧ Transaction.wr4 0x004 0xC0DE0000 = .wr4 0x004 mixed.cfg.chipIdBreak
    ∧ mixed.bus.engines[1]? = some ⟨.scratchpad, 0x400, 0x400⟩ := ⟨mixed_inv, rfl, rfl⟩

theorem witness_PowerOnState :
    (State.powerOn mixedConfig).bus.engines[1]? = some ⟨.scratchpad, 0x400, 0x400⟩
    ∧ (State.powerOn mixedConfig).bus.engines[2]? = some ⟨.other 7, 0x800, 0x10⟩ := ⟨rfl, rfl⟩

theorem witness_ConstructionIsTotalOnGoodConfigurations :
    padsConfig.wf = true ∧ { padsConfig with scratchWin := 0x404 }.wf = false := by decide

theorem witness_FirstReadsAfterPowerOn : defaultConfig.wf = true ∧ defaultConfig.further = [] := by decide

theorem witness_BackToBackSequences :
    mixed.Inv ∧ mixed.bus.engines[0]? = some ⟨.scratchpad, 0, 0x400⟩ ∧ (0x3FC : Addr).toNat < 0x400
    ∧ (0x3FC : Addr).toNat % 4 = 0 := ⟨mixed_inv, rfl, by decide⟩

/-- UnmappedReadsZeroAndDropsWrites, at the last eight bytes of the first gap. -/
theorem witness_UnmappedReadsZeroAndDropsWrites :
    8 ∈ mixed.cfg.accessSizes ∧ (0x7F8 : Addr).toNat + 8 ≤ 0x200000 ∧ ∀ i < 8, ¬ (0x7F8 : Addr).toNat + i < 0x400
      ∧ ¬ (0x800 ≤ (0x7F8 : Addr).toNat + i ∧ (0x7F8 : Addr).toNat + i < 0x800 + mixed.cfg.slaveSize)
      ∧ ¬ (0xC00 ≤ (0x7F8 : Addr).toNat + i ∧ (0x7F8 : Addr).toNat + i < 0xC00 + mixed.cfg.lbusSize) := by decide

theorem witness_SlaveWindowDelegates :
    mixed.cfg.wf = true ∧ 0x800 ≤ (0xBFC : Addr).toNat ∧ (0xBFC : Addr).toNat < 0x800 + mixed.cfg.slaveSize ∧ (0xBFC : Addr).toNat % 4 = 0 := by decide

theorem witness_ReadReturnsTheWordShown :
    mixed.Inv ∧ region mixed.cfg (0xC00 : Addr).toNat ≠ .slave ∧ region mixed.cfg (0x7FC : Addr).toNat ≠ .slave :=
  ⟨mixed_inv, by decide⟩

theorem witness_ReadsHaveNoSideEffect :
    mixed.Inv ∧ (∃ s', step (mixed.issue (.rd 0xC00 4)) = .next s' ∧ s'.bus = mixed.bus)
    ∧ region mixed.cfg (0xC00 : Addr).toNat ≠ .slave :=
  ⟨mixed_inv, ⟨(mixed.accept (.rd 0xC00 4) []).finishWord 0, by rfl, rfl⟩, by decide⟩

theorem witness_OnlyTheseTransactionsChangeTheHub :
    ((holding 0xFF).issue (.wr4 0x000 0xC0DE0000)).Inv
    ∧ ∃ s', step ((holding 0xFF).issue (.wr4 0x000 0xC0DE0000)) = .next s' ∧ s'.bus ≠ (holding 0xFF).bus :=
  ⟨(holding_inv 0xFF).issue _, _, rfl, by decide⟩

theorem witness_TraceIsASideChannel :
    (∃ s', step (mixed.issue (.wr4 0x008 7)) = .next s')
    ∧ step (mixed.issue (.rd 0x000 1)) = .refused (.notAdmitted .mappedWidthNotFour) :=
  ⟨next_of_goesOn (by decide), rfl⟩

theorem witness_EventsOfATransaction :
    (mixed.issue (.wr4 0x008 7)).pending = [.wr4 0x008 7] ∧ ∃ s', step (mixed.issue (.wr4 0x008 7)) = .next s' :=
  ⟨rfl, next_of_goesOn (by decide)⟩

end Sys2Proof.Tests
end

section
/-! PROOFS of the family 10_state: the state after power-on construction (R41) and after a cold reset (R42). -/

namespace Sys2Proof.Machine

/-- Construction gives every listed engine the reset state of its type (R41, R151). -/
theorem Bus.construct_inst {c : Config} {k : Nat} {e : Engine} (he : (Bus.construct c).engines[k]? = some e) :
    (Bus.construct c).inst[k]? = some (resetState e.type) := by
  rw [Bus.construct_eq] at he ⊢
  rw [List.getElem?_map, he, Option.map_some]

/-- A cold reset of a bus with the configured engine list leaves the bus construction makes (R42, R153). -/
theorem Bus.coldReset_eq_construct {b : Bus} {c : Config} (h : b.engines = c.engines) :
    b.coldReset = Bus.construct c := by
  rw [Bus.construct_eq, Bus.coldReset, h]

/-- The sentinel written to either trigger address completes, cold-resets the bus and touches nothing else of the
block (R131, R132, R134). -/
theorem step_sentinel {s : State} {a : Addr} (hc : s.cfg.wf = true) (ha : a = 0x000 ∨ a = 0x004) :
    ∃ s', step (s.issue (.wr4 a s.cfg.chipIdBreak)) = .next s' ∧ s'.reply = some .written ∧ s'.cfg = s.cfg
      ∧ s'.bus = s.bus.coldReset ∧ s'.slaveLog = s.slaveLog ∧ s'.pending = s.pending := by
  obtain ⟨hlt, h4, hunit⟩ : a.toNat < 0x400 ∧ a.toNat % 4 = 0 ∧ (a.toNat / 4 = 0 ∨ a.toNat / 4 = 1) := by
    rcases ha with rfl | rfl <;> decide
  obtain ⟨s', hstep, hreply, hcfg, hbus, hlog, hpending⟩ := step_cfg_write s.cfg.chipIdBreak hc hlt h4
  rw [if_pos ⟨hunit, rfl⟩] at hbus
  exact ⟨s', hstep, hreply, hcfg, hbus, hlog, hpending⟩

/-- Settles O41: the trigger cold-resets the bus, and by the invariant its list is the one construction attaches. -/
theorem coldResetIsPowerOnState : Obligations.ColdResetIsPowerOnState := by
  intro s a hI ha
  obtain ⟨s', hstep, -, hcfg, hbus, -, -⟩ := step_sentinel hI.cfgOk ha
  refine ⟨s', hstep, ?_, hcfg, ?_, hcfg⟩
  · rw [hbus, State.powerOn_bus, Bus.coldReset_eq_construct hI.engines]
  · rw [hbus, Bus.coldReset_engines]

/-- Settles O44, from the closed form of construction: the list is the configured one, the states are reset states. -/
theorem powerOnState : Obligations.PowerOnState := by
  intro c
  have hengines : (State.powerOn c).bus.engines = c.engines := by rw [State.powerOn_bus, Bus.construct_eq]
  refine ⟨State.powerOn_cfg c, hengines, ?bootstrap, ?length, fun k e he => ?states⟩
  case bootstrap => rw [hengines]; rfl
  case length => rw [State.powerOn_bus, Bus.construct_eq, List.length_map]
  case states =>
    have hinst : (State.powerOn c).bus.inst[k]? = some (resetState e.type) := Bus.construct_inst he
    exact ⟨fun ht => by rw [hinst, ht]; rfl, fun t ht => by rw [hinst, ht]; rfl⟩

end Sys2Proof.Machine
end

section
/-! PROOFS of the family 20_memory: what the interface refuses (R56, R57), the byte lanes of a word (R54), the writes
that are idempotent (R67), and how long a Scratchpad holds a word (R69). -/

namespace Sys2Proof.Machine

/-! What the interface refuses -/

/-- A transaction that is not admitted is refused, whatever the reason (R14). -/
theorem step_issue_refused_of_reject {s : State} {t : Transaction} (h : reject? s.cfg t ≠ none) :
    ∃ r, step (s.issue t) = .refused (.notAdmitted r) := by
  obtain ⟨r, hr⟩ := Option.ne_none_iff_exists'.1 h
  exact ⟨r, step_issue_refused hr⟩

/-- Settles O5: the admission test asks width 4 and alignment of every transaction in a mapped region. -/
theorem mappedWidthOrAlignmentRefused : Obligations.MappedWidthOrAlignmentRefused := by
  intro s t hmapped hbad
  refine step_issue_refused_of_reject fun hnone => ?_
  obtain ⟨-, -, hshape, -⟩ := reject?_none_iff.1 hnone
  obtain ⟨hwidth, haligned⟩ := hshape hmapped
  exact hbad.elim (· hwidth) (· haligned)

/-- Settles O6: each case fails one conjunct of the admission test, and an aligned word stays in its region. -/
theorem outsideInterfaceRefused : Obligations.OutsideInterfaceRefused := by
  intro s t
  refine ⟨fun hsize => ?_, fun hend => ?_, fun hregions => ?_, fun hsizes _ hwidth haligned => ?_⟩
  · refine step_issue_refused_of_reject fun hnone => ?_
    exact hsize (reject?_none_iff.1 hnone).1
  · refine step_issue_refused_of_reject fun hnone => ?_
    obtain ⟨-, hinside, -, -⟩ := reject?_none_iff.1 hnone
    exact absurd hinside (Nat.not_le.2 hend)
  · refine step_issue_refused_of_reject fun hnone => ?_
    obtain ⟨-, -, -, hone⟩ := reject?_none_iff.1 hnone
    obtain ⟨n, hn, hne⟩ := hregions
    exact hne (inOneRegion_iff.1 hone n hn)
  · rw [hwidth]
    exact inOneRegion_iff.1 (inOneRegion_aligned hsizes haligned)

/-! Byte lanes -/

/-- The byte at offset `k` of an aligned word is lane `k` of the word (R54). -/
theorem State.byteAt_lane {s : State} {a k : Nat} {w : Word} (ha : a % 4 = 0) (hk : k < 4) (hw : s.wordAt a = some w) :
    s.byteAt (a + k) = some (lane w k) := by
  have hlane : (a + k) % 4 = k := by omega
  rw [State.byteAt, hlane, Nat.add_sub_cancel, hw, Option.map_some]

/-- Settles O40, lane by lane. -/
theorem byteLanesAreBigEndian : Obligations.ByteLanesAreBigEndian := by
  intro s a w ha hw
  obtain ⟨h0, h1, h2, h3⟩ := lane_eq w
  rw [← h0, ← h1, ← h2, ← h3]
  exact ⟨State.byteAt_lane ha (k := 0) (by decide) hw, State.byteAt_lane ha (by decide) hw,
    State.byteAt_lane ha (by decide) hw, State.byteAt_lane ha (by decide) hw⟩

/-! The register of a Scratchpad -/

/-- Taking a transaction keeps the invariant: it writes the model's own fields only. -/
theorem State.Inv.accept {s : State} (h : s.Inv) (t : Transaction) (rest : List Transaction) : (s.accept t rest).Inv :=
  ⟨h.cfgOk, h.engines, h.inst⟩

/-- A listed Scratchpad has a register (R26, R154). -/
theorem scratch?_of_engine {s : State} (hI : s.Inv) {j : Nat} {e : Engine} (hj : s.bus.engines[j]? = some e)
    (ht : e.type = .scratchpad) : ∃ v, s.bus.scratch? j = some v := by
  obtain ⟨i, hi, hok⟩ := inst_of_engine hI.inst hj
  cases i with
  | scratchpad v => exact ⟨v, Bus.scratch?_eq hi⟩
  | other code => simp [instOk, ht] at hok

/-- A listed engine of another type has a state of its type (R28, R154). -/
theorem other?_of_engine {s : State} (hI : s.Inv) {j t : Nat} {e : Engine} (hj : s.bus.engines[j]? = some e)
    (ht : e.type = .other t) : ∃ code, s.bus.other? j = some (t, code) := by
  obtain ⟨i, hi, hok⟩ := inst_of_engine hI.inst hj
  cases i with
  | scratchpad v => simp [instOk, ht] at hok
  | other code => exact ⟨code, Bus.other?_eq hj ht hi⟩

/-- The address of an engine's first word, in numbers (R86). -/
theorem windowAddr_zero_toNat {s : State} (hI : s.Inv) {j : Nat} {e : Engine} (hj : s.bus.engines[j]? = some e) :
    (windowAddr s.bus.engines j 0).toNat = 0xC00 + e.winBase ∧ e.winBase % 4 = 0 ∧ 4 ≤ e.winSize := by
  obtain ⟨hbase, -, hsize, -⟩ := windowOk_of_getElem? hI.enginesOk hj
  exact ⟨windowAddr_toNat hI.sizesOk hI.enginesOk hj (by omega), hbase, hsize⟩

/-- A read of a Scratchpad's register completes with the word it holds (R170). -/
theorem step_scratchpad_register_read {s : State} (hI : s.Inv) {j : Nat} {e : Engine}
    (hj : s.bus.engines[j]? = some e) (ht : e.type = .scratchpad) {v : Word}
    (hv : s.bus.inst[j]? = some (.scratchpad v)) :
    ∃ s', step (s.issue (.rd4 (windowAddr s.bus.engines j 0))) = .next s' ∧ s'.reply = some (.read 4 v) := by
  obtain ⟨haddr, hbase, hsize⟩ := windowAddr_zero_toNat hI hj
  obtain ⟨v', s', -, hv', hstep, -, -, -, -, hreply, -⟩ := step_scratchpad hI (by omega) hj ht
    (Nat.le_of_eq haddr.symm) (by omega) 0
  obtain rfl : v = v' := by simpa [hv] using hv'
  rw [if_pos (by omega)] at hreply
  exact ⟨s', hstep, hreply⟩

/-- A write of a Scratchpad's register completes, stores the word and touches nothing else of the block (R172). -/
theorem step_scratchpad_register_write {s : State} (hI : s.Inv) {j : Nat} {e : Engine}
    (hj : s.bus.engines[j]? = some e) (ht : e.type = .scratchpad) (d : Word) :
    ∃ s', step (s.issue (.wr4 (windowAddr s.bus.engines j 0) d)) = .next s' ∧ s'.reply = some .written
      ∧ s'.cfg = s.cfg ∧ s'.bus = s.bus.setInst j (.scratchpad d) ∧ s'.slaveLog = s.slaveLog
      ∧ s'.pending = s.pending := by
  obtain ⟨haddr, hbase, hsize⟩ := windowAddr_zero_toNat hI hj
  obtain ⟨-, -, s', -, -, -, -, -, -, -, hstep, hreply, hcfg, hlog, hpending, hbus⟩ := step_scratchpad hI (by omega)
    hj ht (Nat.le_of_eq haddr.symm) (by omega) d
  rw [if_pos (by omega)] at hbus
  exact ⟨s', hstep, hreply, hcfg, hbus, hlog, hpending⟩

/-! Idempotent writes -/

theorem Bus.coldReset_coldReset (b : Bus) : b.coldReset.coldReset = b.coldReset := rfl

theorem Bus.setInst_setInst (b : Bus) (j : Nat) (i i' : InstState) : (b.setInst j i).setInst j i' = b.setInst j i' := by
  simp only [Bus.setInst, List.set_set]

/-- A step keeps the invariant: its effect on the bus leaves every engine a state of its type (R154). -/
theorem State.Inv.of_step {s s' : State} (hI : s.Inv) (h : step s = .next s') : s'.Inv := by
  obtain ⟨-, rfl⟩ | ⟨t, rest, i, -, -, hx⟩ := step_next h
  · exact hI
  · obtain ⟨hcfg, hengines, -⟩ := exec_frame hx
    refine ⟨?_, ?_, (exec_bus hx).inst hI.inst⟩
    · rw [hcfg]
      exact hI.cfgOk
    · rw [hengines, hcfg]
      exact hI.engines

/-- Settles O43: a cold reset of a reset bus, and a store over a store, change nothing more. -/
theorem effectiveWritesAreIdempotent : Obligations.EffectiveWritesAreIdempotent := by
  intro s t hI ht
  rcases ht with htrigger | ⟨j, e, d, hj, htype, rfl⟩
  · obtain ⟨a, ha, rfl⟩ : ∃ a : Addr, (a = 0x000 ∨ a = 0x004) ∧ t = .wr4 a s.cfg.chipIdBreak :=
      htrigger.elim (fun h => ⟨_, .inl rfl, h⟩) (fun h => ⟨_, .inr rfl, h⟩)
    obtain ⟨s₁, hstep₁, hreply₁, hcfg₁, hbus₁, -, -⟩ := step_sentinel hI.cfgOk ha
    obtain ⟨s₂, hstep₂, hreply₂, hcfg₂, hbus₂, -, -⟩ :=
      step_sentinel ((hI.issue _).of_step hstep₁).cfgOk ha
    rw [hcfg₁] at hstep₂
    refine ⟨s₁, s₂, hstep₁, hstep₂, ?_, hcfg₂, by rw [hreply₂, hreply₁]⟩
    rw [hbus₂, hbus₁, Bus.coldReset_coldReset]
  · obtain ⟨s₁, hstep₁, hreply₁, -, hbus₁, -, -⟩ := step_scratchpad_register_write hI hj htype d
    have hengines : s₁.bus.engines = s.bus.engines := by rw [hbus₁, Bus.setInst_engines]
    obtain ⟨s₂, hstep₂, hreply₂, hcfg₂, hbus₂, -, -⟩ :=
      step_scratchpad_register_write ((hI.issue _).of_step hstep₁) (by rw [hengines]; exact hj) htype d
    rw [hengines] at hstep₂
    refine ⟨s₁, s₂, hstep₁, hstep₂, ?_, hcfg₂, by rw [hreply₂, hreply₁]⟩
    rw [hbus₂, hbus₁, Bus.setInst_setInst]

/-! Progress: an admitted transaction completes (R13) -/

/-- A Secondary Bus read row completes in a hub: the engine hit has a state of its type. -/
theorem exec_selectLbusRead_completes {s : State} (hI : s.Inv) (o : Nat) :
    ∃ s', exec (selectLbusRead s.bus.engines o) s = .next s' := by
  unfold selectLbusRead
  split
  · exact ⟨_, rfl⟩
  · next j base size hhit =>
    split_ifs
    · obtain ⟨v, hv⟩ := scratch?_of_engine hI (windowHit_some hhit).1 rfl
      exact ⟨s.finishWord v, by simp only [exec, execScrRdData, hv]⟩
    · exact ⟨_, rfl⟩
  · next j t base size hhit =>
    obtain ⟨code, hcode⟩ := other?_of_engine hI (windowHit_some hhit).1 rfl
    simp only [exec, execLbusRdEng, hcode]
    exact ⟨_, rfl⟩

/-- The Secondary Bus write row at an offset, case by case (R89): a hole, the register of a Scratchpad, the rest of its
window, or the window of an engine of another type. -/
theorem selectLbusWrite_cases (es : List Engine) (o : Nat) (d : Word) :
    (windowHit es o = none ∧ selectLbusWrite es o d = .lbusWrHole o d)
    ∨ ∃ j e, windowHit es o = some (j, e) ∧
      ((e.type = .scratchpad ∧ o = e.winBase ∧ selectLbusWrite es o d = .scrWrData j d)
      ∨ (e.type = .scratchpad ∧ o ≠ e.winBase ∧ selectLbusWrite es o d = .scrWrPad j (o - e.winBase) d)
      ∨ ∃ t, e.type = .other t ∧ selectLbusWrite es o d = .lbusWrEng j (o - e.winBase) d) := by
  cases hhit : windowHit es o with
  | none => exact .inl ⟨rfl, by rw [selectLbusWrite, hhit]⟩
  | some hit =>
    obtain ⟨j, ⟨type, base, size⟩⟩ := hit
    obtain ⟨-, hlow, -⟩ := windowHit_some hhit
    refine .inr ⟨j, ⟨type, base, size⟩, rfl, ?_⟩
    cases type with
    | other t => exact .inr (.inr ⟨t, rfl, by rw [selectLbusWrite, hhit]⟩)
    | scratchpad =>
      by_cases ho : o = base
      · exact .inl ⟨rfl, ho, by rw [selectLbusWrite, hhit]; simp [ho]⟩
      · have hpad : o - base ≠ 0 := by simp only at hlow; omega
        exact .inr (.inl ⟨rfl, ho, by rw [selectLbusWrite, hhit]; simp [hpad]⟩)

/-- A Secondary Bus write row completes in a hub: the engine hit has a state of its type. -/
theorem exec_selectLbusWrite_completes {s : State} (hI : s.Inv) (o : Nat) (d : Word) :
    ∃ s', exec (selectLbusWrite s.bus.engines o d) s = .next s' := by
  obtain ⟨-, hsel⟩ | ⟨j, e, hhit, ⟨ht, -, hsel⟩ | ⟨-, -, hsel⟩ | ⟨t, ht, hsel⟩⟩ :=
    selectLbusWrite_cases s.bus.engines o d <;> rw [hsel]
  · exact ⟨_, rfl⟩
  · obtain ⟨v, hv⟩ := scratch?_of_engine hI (windowHit_some hhit).1 ht
    simp only [exec, execScrWrData, hv]
    exact ⟨_, rfl⟩
  · exact ⟨_, rfl⟩
  · obtain ⟨code, hcode⟩ := other?_of_engine hI (windowHit_some hhit).1 ht
    simp only [exec, execLbusWrEng, hcode]
    exact ⟨_, rfl⟩

/-- The row of an admitted transaction completes in a hub, region by region. -/
theorem exec_select_completes {s : State} (hI : s.Inv) {t : Transaction} (hr : reject? s.cfg t = none) :
    ∃ s', exec (select s.cfg s.bus.engines t) s = .next s' := by
  obtain ⟨-, -, hshape, -⟩ := reject?_none_iff.1 hr
  cases t with
  | rd a n =>
    cases hreg : region s.cfg a.toNat with
    | cfg =>
      have haligned : a.toNat % 4 = 0 := (hshape (by simp [hreg])).2
      exact ⟨_, by rw [select_rd_cfg hreg, exec_selectCfgRead s haligned]⟩
    | slave => exact ⟨_, by rw [select_rd_slave hreg]; rfl⟩
    | lbus => rw [select_rd_lbus hreg]; exact exec_selectLbusRead_completes hI _
    | unmapped => exact ⟨_, by rw [select_rd_unmapped hreg]; rfl⟩
  | wr a n d =>
    cases hreg : region s.cfg a.toNat with
    | cfg =>
      rw [select_wr_cfg hreg, selectCfgWrite_eq]
      split_ifs <;> exact ⟨_, rfl⟩
    | slave => exact ⟨_, by rw [select_wr_slave hreg]; rfl⟩
    | lbus => rw [select_wr_lbus hreg]; exact exec_selectLbusWrite_completes hI _ _
    | unmapped => exact ⟨_, by rw [select_wr_unmapped hreg]; rfl⟩

/-- An admitted transaction completes in a hub, and leaves the rest of the queue (R13, R68). -/
theorem step_issue_completes {s : State} (hI : s.Inv) {t : Transaction} (hr : reject? s.cfg t = none) :
    ∃ s', step (s.issue t) = .next s' ∧ s'.pending = s.pending := by
  obtain ⟨s', hs'⟩ := exec_select_completes (hI.accept t s.pending) hr
  refine ⟨s', ?_, (exec_frame hs').2.2⟩
  rw [step_issue (decode_ok_iff.2 ⟨hr, rfl⟩)]
  exact hs'

/-! Which transactions select the rows that write a Scratchpad's register -/

/-- An admitted transaction that selects a row without a returned word is a write (R89). -/
theorem wr_of_readWidth_none {c : Config} {es : List Engine} {t : Transaction} (hr : reject? c t = none)
    (hw : readWidth (select c es t) = none) : ∃ a n d, t = .wr a n d := by
  cases t with
  | rd a n => rw [readWidth_select_rd es hr] at hw; cases hw
  | wr a n d => exact ⟨a, n, d, rfl⟩

/-- An admitted write to a mapped region is a `WR4` at an aligned address (R55). -/
theorem wr4_of_mapped {c : Config} {a : Addr} {n : Nat} {d : BitVec (8 * n)} (hr : reject? c (.wr a n d) = none)
    (hreg : region c a.toNat ≠ .unmapped) : Transaction.wr a n d = .wr4 a (d.setWidth 32) ∧ a.toNat % 4 = 0 := by
  obtain ⟨-, -, hshape, -⟩ := reject?_none_iff.1 hr
  obtain ⟨hn, haligned⟩ := hshape hreg
  obtain rfl : n = 4 := hn
  exact ⟨by rw [Transaction.wr4, BitVec.setWidth_eq], haligned⟩

/-- A Secondary Bus write row is a Scratchpad's store only at the first word of that engine's window (R172). -/
theorem eq_winBase_of_selectLbusWrite_eq_scrWrData {es : List Engine} {o j : Nat} {d d' : Word}
    (h : selectLbusWrite es o d' = .scrWrData j d) : d' = d ∧ ∃ e, es[j]? = some e ∧ o = e.winBase := by
  obtain ⟨-, hsel⟩ | ⟨k, e, hhit, ⟨-, hbase, hsel⟩ | ⟨-, -, hsel⟩ | ⟨t, -, hsel⟩⟩ :=
    selectLbusWrite_cases es o d' <;> rw [hsel] at h <;> cases h
  exact ⟨rfl, e, (windowHit_some hhit).1, hbase⟩

/-- The store row of Scratchpad `j` is selected by a write of its register alone (R172). -/
theorem eq_wr4_of_select_scrWrData {c : Config} {es : List Engine} {t : Transaction} {j : Nat} {d : Word}
    (hr : reject? c t = none) (h : select c es t = .scrWrData j d) : t = .wr4 (windowAddr es j 0) d := by
  obtain ⟨a, n, d', rfl⟩ := wr_of_readWidth_none (es := es) hr (by rw [h]; rfl)
  cases hreg : region c a.toNat with
  | cfg => rw [select_wr_cfg hreg, selectCfgWrite_eq] at h; split_ifs at h
  | slave => rw [select_wr_slave hreg] at h; cases h
  | unmapped => rw [select_wr_unmapped hreg] at h; cases h
  | lbus =>
    rw [select_wr_lbus hreg] at h
    obtain ⟨hd, e, he, hbase⟩ := eq_winBase_of_selectLbusWrite_eq_scrWrData h
    have hlow := (region_lbus.1 hreg).1
    have haddr : a = windowAddr es j 0 := by
      apply BitVec.eq_of_toNat_eq
      have hlt := a.isLt
      simp only [windowAddr, winBaseAt, he, lbusBase, BitVec.toNat_ofNat]
      omega
    rw [(wr4_of_mapped hr (by simp [hreg])).1, hd, haddr]

/-- The trigger rows are selected by writes of the two trigger addresses alone (R131, R132). -/
theorem eq_wr4_of_select_trigger {c : Config} {es : List Engine} {t : Transaction} {d : Word}
    (hr : reject? c t = none) (h : select c es t = .cfgWrChipid d ∨ select c es t = .cfgWrPeek d) :
    t = .wr4 0x000 d ∨ t = .wr4 0x004 d := by
  obtain ⟨a, n, d', rfl⟩ := wr_of_readWidth_none (es := es) hr (by rcases h with h | h <;> rw [h] <;> rfl)
  cases hreg : region c a.toNat with
  | slave => simp [select_wr_slave hreg] at h
  | unmapped => simp [select_wr_unmapped hreg] at h
  | lbus =>
    rw [select_wr_lbus hreg] at h
    obtain ⟨-, hsel⟩ | ⟨k, e, -, ⟨-, -, hsel⟩ | ⟨-, -, hsel⟩ | ⟨tag, -, hsel⟩⟩ :=
      selectLbusWrite_cases es (a.toNat - 0xC00) (d'.setWidth 32) <;> simp [hsel] at h
  | cfg =>
    obtain ⟨hwr4, haligned⟩ := wr4_of_mapped hr (by simp [hreg])
    rw [select_wr_cfg hreg, selectCfgWrite_eq] at h
    rw [hwr4]
    split_ifs at h with h0 h1
    · left
      obtain rfl : a = 0x000 := BitVec.eq_of_toNat_eq (show a.toNat = 0 by omega)
      exact congrArg (Transaction.wr4 0x000) (by simpa using h)
    · right
      obtain rfl : a = 0x004 := BitVec.eq_of_toNat_eq (show a.toNat = 4 by omega)
      exact congrArg (Transaction.wr4 0x004) (by simpa using h)
    · simp at h

/-! How long a Scratchpad holds a word -/

/-- The state is a hub of this configuration and engine list, in which engine `j` is a Scratchpad whose register holds
`v` (R26). -/
structure ScratchpadHolds (c : Config) (es : List Engine) (j : Nat) (v : Word) (s : State) : Prop where
  inv     : s.Inv
  cfg     : s.cfg = c
  engines : s.bus.engines = es
  engine  : ∃ e, es[j]? = some e ∧ e.type = .scratchpad
  value   : s.bus.inst[j]? = some (.scratchpad v)

/-- The transaction is admitted and leaves `v` in the register of Scratchpad `j`: it does not write that register, and
it triggers no reset unless `v` is the reset value. -/
structure Spares (c : Config) (es : List Engine) (j : Nat) (v : Word) (t : Transaction) : Prop where
  admitted  : reject? c t = none
  noStore   : ∀ d, t ≠ .wr4 (windowAddr es j 0) d
  noTrigger : v = 0 ∨ (t ≠ .wr4 0x000 c.chipIdBreak ∧ t ≠ .wr4 0x004 c.chipIdBreak)

/-- An engine of another type is not the one that holds a Scratchpad's state (R28). -/
theorem Bus.other?_index_ne {b : Bus} {j k t code : Nat} {v : Word} (hk : b.other? k = some (t, code))
    (hj : b.inst[j]? = some (.scratchpad v)) : k ≠ j := by
  rintro rfl
  simp [(Bus.other?_some hk).2] at hj

/-- Of the five effects on the bus, only the store to Scratchpad `j` and a cold reset reach its register, and a cold
reset leaves 0 there. -/
theorem BusEffect.scratchpad_kept {i : Instr} {s : State} {b : Bus} (h : BusEffect i s b) {j : Nat} {e : Engine}
    {v : Word} (hj : s.bus.engines[j]? = some e) (ht : e.type = .scratchpad)
    (hv : s.bus.inst[j]? = some (.scratchpad v)) (hstore : ∀ d, i ≠ .scrWrData j d)
    (htrigger : v = 0 ∨ (i ≠ .cfgWrChipid s.cfg.chipIdBreak ∧ i ≠ .cfgWrPeek s.cfg.chipIdBreak)) :
    b.inst[j]? = some (.scratchpad v) := by
  cases h with
  | same => exact hv
  | reset d hi hd =>
    subst hd
    obtain rfl : v = 0 := htrigger.resolve_right fun hno => hi.elim hno.1 hno.2
    rw [Bus.coldReset_inst, List.getElem?_map, hj, Option.map_some, ht, resetState]
  | store k d _ hi _ =>
    have hk : k ≠ j := fun hkj => hstore d (hkj ▸ hi)
    rw [Bus.setInst_inst, List.getElem?_set_ne hk, hv]
  | otherRead k _ _ _ _ hother =>
    rw [Bus.setInst_inst, List.getElem?_set_ne (Bus.other?_index_ne hother hv), hv]
  | otherWrite k _ _ _ _ _ hother =>
    rw [Bus.setInst_inst, List.getElem?_set_ne (Bus.other?_index_ne hother hv), hv]

/-- A state with a transaction pending is one in which it has just been issued. -/
theorem State.issue_of_pending {s : State} {t : Transaction} {rest : List Transaction} (hp : s.pending = t :: rest) :
    State.issue { s with pending := rest } t = s := by
  rw [State.issue, ← hp]

/-- The host's queue is no part of the invariant (R23). -/
theorem State.Inv.withPending {s : State} (h : s.Inv) (l : List Transaction) : State.Inv { s with pending := l } :=
  ⟨h.cfgOk, h.engines, h.inst⟩

section
variable {c : Config} {es : List Engine} {j : Nat} {v : Word} {s : State}

theorem ScratchpadHolds.withPending (h : ScratchpadHolds c es j v s) (l : List Transaction) :
    ScratchpadHolds c es j v { s with pending := l } :=
  ⟨h.inv.withPending l, h.cfg, h.engines, h.engine, h.value⟩

/-- A transaction that spares the register completes, and the register holds its word after it (R66, R69). -/
theorem ScratchpadHolds.step_issue (h : ScratchpadHolds c es j v s) {t : Transaction} (ht : Spares c es j v t) :
    ∃ s', step (s.issue t) = .next s' ∧ s'.pending = s.pending ∧ ScratchpadHolds c es j v s' := by
  obtain ⟨hI, rfl, rfl, ⟨e, hj, htype⟩, hvalue⟩ := h
  obtain ⟨s', hstep, hpending⟩ := step_issue_completes hI ht.admitted
  obtain ⟨hcfg, hengines⟩ := step_keeps_layout hstep
  refine ⟨s', hstep, hpending, (hI.issue t).of_step hstep, hcfg, hengines, ⟨e, hj, htype⟩, ?_⟩
  refine (exec_bus (step_issue_next hstep).2).scratchpad_kept hj htype hvalue ?noStore ?noTrigger
  case noStore => exact fun d hi => ht.noStore d (eq_wr4_of_select_scrWrData ht.admitted hi)
  case noTrigger =>
    refine ht.noTrigger.imp_right fun ⟨h0, h4⟩ => ⟨fun hi => ?_, fun hi => ?_⟩
    · exact (eq_wr4_of_select_trigger ht.admitted (.inl hi)).elim h0 h4
    · exact (eq_wr4_of_select_trigger ht.admitted (.inr hi)).elim h0 h4

/-- After any list of transactions that spare it, a read of the register returns the word it holds (R69). -/
theorem ScratchpadHolds.run_read (h : ScratchpadHolds c es j v s) {between : List Transaction}
    (hspare : ∀ t ∈ between, Spares c es j v t) (hp : s.pending = between ++ [.rd4 (windowAddr es j 0)]) :
    ∃ s', Host.Core.run core (between.length + 1) s = .next s' ∧ s'.reply = some (.read 4 v) := by
  induction between generalizing s with
  | nil =>
    obtain ⟨hI, -, rfl, ⟨e, hj, htype⟩, hvalue⟩ := h
    obtain ⟨s', hstep, hreply⟩ := step_scratchpad_register_read (hI.withPending []) hj htype hvalue
    rw [State.issue_of_pending hp] at hstep
    exact ⟨s', run_succ hstep 0, hreply⟩
  | cons t between ih =>
    obtain ⟨ht, hrest⟩ := List.forall_mem_cons.1 hspare
    obtain ⟨s₁, hstep, hpending, h₁⟩ := (h.withPending _).step_issue ht
    rw [State.issue_of_pending hp] at hstep
    obtain ⟨s', hrun, hreply⟩ := ih h₁ hrest hpending
    exact ⟨s', (run_succ hstep _).trans hrun, hreply⟩

/-- After a store the register holds the word stored (R172). -/
theorem step_store_holds (hI : s.Inv) {e : Engine} (hj : s.bus.engines[j]? = some e) (ht : e.type = .scratchpad)
    (x : Word) :
    ∃ s', step (s.issue (.wr4 (windowAddr s.bus.engines j 0) x)) = .next s' ∧ s'.pending = s.pending
      ∧ ScratchpadHolds s.cfg s.bus.engines j x s' := by
  obtain ⟨s', hstep, -, hcfg, hbus, -, hpending⟩ := step_scratchpad_register_write hI hj ht x
  obtain ⟨i, hi, -⟩ := inst_of_engine hI.inst hj
  refine ⟨s', hstep, hpending, (hI.issue _).of_step hstep, hcfg, by rw [hbus, Bus.setInst_engines], ⟨e, hj, ht⟩, ?_⟩
  have hlt : j < s.bus.inst.length := (List.getElem?_eq_some_iff.1 hi).1
  rw [hbus, Bus.setInst_inst, List.getElem?_set_self hlt]

/-- After a trigger the register of every Scratchpad holds 0 (R153, R174). -/
theorem step_sentinel_holds (hI : s.Inv) {e : Engine} (hj : s.bus.engines[j]? = some e) (ht : e.type = .scratchpad)
    {a : Addr} (ha : a = 0x000 ∨ a = 0x004) :
    ∃ s', step (s.issue (.wr4 a s.cfg.chipIdBreak)) = .next s' ∧ s'.pending = s.pending
      ∧ ScratchpadHolds s.cfg s.bus.engines j 0 s' := by
  obtain ⟨s', hstep, -, hcfg, hbus, -, hpending⟩ := step_sentinel hI.cfgOk ha
  refine ⟨s', hstep, hpending, (hI.issue _).of_step hstep, hcfg, by rw [hbus, Bus.coldReset_engines],
    ⟨e, hj, ht⟩, ?_⟩
  rw [hbus, Bus.coldReset_inst, List.getElem?_map, hj, Option.map_some, ht, resetState]

end

/-- Settles O38, by induction on the transactions between: the store or the trigger puts the word in the register, every
transaction between spares it, and the read returns it. -/
theorem scratchpadHoldsLastWordUntilReset : Obligations.ScratchpadHoldsLastWordUntilReset := by
  intro s j e x a between hI hj htype hadm hstore ha
  have hI' := hI.withPending (between ++ [.rd4 (windowAddr s.bus.engines j 0)])
  refine ⟨fun htrigger => ?_, ?_⟩
  · obtain ⟨s₁, hstep, hpending, h₁⟩ := step_store_holds hI' hj htype x
    obtain ⟨s', hrun, hreply⟩ :=
      h₁.run_read (fun t ht => ⟨hadm t ht, hstore t ht, .inr (htrigger t ht)⟩) hpending
    exact ⟨s', (run_succ hstep _).trans hrun, hreply⟩
  · obtain ⟨s₁, hstep, hpending, h₁⟩ := step_sentinel_holds hI' hj htype ha
    obtain ⟨s', hrun, hreply⟩ := h₁.run_read (fun t ht => ⟨hadm t ht, hstore t ht, .inl rfl⟩) hpending
    exact ⟨s', (run_succ hstep _).trans hrun, hreply⟩

end Sys2Proof.Machine
end

section
/-! PROOFS of the family 30_encoding: the fields of the command word, and packing and unpacking (R81). -/

namespace Sys2Proof

/-! The `sz` code -/

/-- The four widths of R81, code by code. -/
theorem sizeOfCode_eq (sz : BitVec 2) :
    sizeOfCode sz = if sz = 0b00#2 then 1 else if sz = 0b01#2 then 2 else if sz = 0b10#2 then 4 else 8 := by
  revert sz
  decide

/-- The two tables of the `sz` code are one relation between codes and widths. -/
theorem codeOfSize_eq_some_iff {n : Nat} {sz : BitVec 2} : codeOfSize n = some sz ↔ sizeOfCode sz = n := by
  constructor
  · intro h
    unfold codeOfSize at h
    split at h <;> cases h <;> rfl
  · rintro rfl
    revert sz
    decide

/-- Exactly the widths 1, 2, 4 and 8 have a code. -/
theorem exists_codeOfSize_iff {n : Nat} : (∃ sz, codeOfSize n = some sz) ↔ n = 1 ∨ n = 2 ∨ n = 4 ∨ n = 8 := by
  constructor
  · rintro ⟨sz, h⟩
    rw [← codeOfSize_eq_some_iff.1 h]
    clear h
    revert sz
    decide
  · rintro (rfl | rfl | rfl | rfl) <;> exact ⟨_, rfl⟩

/-! The fields of a 24-bit word -/

/-- The word whose `rw`, `sz` and `addr` fields these are. -/
def packFields (rw : Bool) (sz : BitVec 2) (a : Addr) : BitVec 24 := (BitVec.ofBool rw ++ sz) ++ a

/-- Bits 20:0 are the address. -/
theorem addr_packFields (rw : Bool) (sz : BitVec 2) (a : Addr) :
    (packFields rw sz a).extractLsb' 0 21 = a :=
  BitVec.extractLsb'_append_eq_right

/-- Bits 22:21 are the `sz` code. -/
theorem sz_packFields (rw : Bool) (sz : BitVec 2) (a : Addr) :
    (packFields rw sz a).extractLsb' 21 2 = sz := by
  rw [packFields, BitVec.extractLsb'_append_eq_of_le (by decide)]
  exact BitVec.extractLsb'_append_eq_right

/-- Bit 23 is the `rw` bit. -/
theorem rw_packFields (rw : Bool) (sz : BitVec 2) (a : Addr) : (packFields rw sz a).getLsbD 23 = rw := by
  rw [packFields, BitVec.getLsbD_append, if_neg (by decide), BitVec.getLsbD_append, if_neg (by decide)]
  exact BitVec.getLsbD_ofBool rw 0

/-- The three fields cover the word: they are adjacent, and they end at bit 23. -/
theorem packFields_of_fields (cmd : BitVec 24) :
    packFields (cmd.getLsbD 23) (cmd.extractLsb' 21 2) (cmd.extractLsb' 0 21) = cmd := by
  have hrw : BitVec.ofBool (cmd.getLsbD 23) = cmd.extractLsb' 23 1 := by
    apply BitVec.eq_of_getLsbD_eq
    simp
  have hhigh : cmd.extractLsb' 23 1 ++ cmd.extractLsb' 21 2 = cmd.extractLsb' 21 3 :=
    BitVec.extractLsb'_append_extractLsb'_eq_extractLsb' rfl
  rw [packFields, hrw, hhigh]
  exact BitVec.extractLsb'_append_extractLsb' (w := 3) (len := 21)

namespace Transaction

/-- A read packs to the word of its fields, `rw` = 0. -/
theorem cmd?_rd (a : Addr) (n : Nat) : (rd a n).cmd? = (codeOfSize n).map (packFields false · a) := rfl

/-- A write packs to the word of its fields, `rw` = 1. -/
theorem cmd?_wr (a : Addr) (n : Nat) (d : BitVec (8 * n)) :
    (wr a n d).cmd? = (codeOfSize n).map (packFields true · a) := rfl

/-- A word with bit 23 clear unpacks to the read of its fields. -/
theorem ofCmd_of_read {cmd : BitVec 24} (h : cmd.getLsbD 23 = false) (data : Nat) :
    ofCmd cmd data = .rd (cmd.extractLsb' 0 21) (sizeOfCode (cmd.extractLsb' 21 2)) := by
  rw [ofCmd, h]
  rfl

/-- A word with bit 23 set unpacks to the write of its fields and the data beside it. -/
theorem ofCmd_of_write {cmd : BitVec 24} (h : cmd.getLsbD 23 = true) (data : Nat) :
    ofCmd cmd data = .wr (cmd.extractLsb' 0 21) (sizeOfCode (cmd.extractLsb' 21 2)) (BitVec.ofNat _ data) := by
  rw [ofCmd, if_pos h]

theorem addr_ofCmd (cmd : BitVec 24) (data : Nat) : (ofCmd cmd data).addr = cmd.extractLsb' 0 21 := by
  cases h : cmd.getLsbD 23 with
  | false => rw [ofCmd_of_read h]; rfl
  | true => rw [ofCmd_of_write h]; rfl

theorem size_ofCmd (cmd : BitVec 24) (data : Nat) :
    (ofCmd cmd data).size = sizeOfCode (cmd.extractLsb' 21 2) := by
  cases h : cmd.getLsbD 23 with
  | false => rw [ofCmd_of_read h]; rfl
  | true => rw [ofCmd_of_write h]; rfl

/-- Bit 23 alone says whether a word unpacks to a write. -/
theorem ofCmd_eq_wr_iff (cmd : BitVec 24) (data : Nat) :
    (∃ a n d, ofCmd cmd data = .wr a n d) ↔ cmd.getLsbD 23 = true := by
  cases h : cmd.getLsbD 23 with
  | false => simp [ofCmd_of_read h]
  | true => exact iff_of_true ⟨_, _, _, ofCmd_of_write h data⟩ rfl

/-- Exactly the transactions of a width with an `sz` code have a command word. -/
theorem exists_cmd?_iff (t : Transaction) : (∃ cmd, t.cmd? = some cmd) ↔ ∃ sz, codeOfSize t.size = some sz := by
  cases t with
  | rd a n => simp [cmd?_rd, ← Option.isSome_iff_exists]
  | wr a n d => simp [cmd?_wr, ← Option.isSome_iff_exists]

/-- Packing the transaction of a word gives the word back. -/
theorem cmd?_ofCmd (cmd : BitVec 24) (data : Nat) : (ofCmd cmd data).cmd? = some cmd := by
  have hcode := codeOfSize_eq_some_iff.2 (rfl : sizeOfCode (cmd.extractLsb' 21 2) = _)
  have hword := packFields_of_fields cmd
  cases h : cmd.getLsbD 23 <;> rw [h] at hword
  case false => rw [ofCmd_of_read h, cmd?_rd, hcode, Option.map_some, hword]
  case true => rw [ofCmd_of_write h, cmd?_wr, hcode, Option.map_some, hword]

/-- Unpacking the word of a transaction with its data gives the transaction back. -/
theorem ofCmd_of_cmd? {t : Transaction} {cmd : BitVec 24} (h : t.cmd? = some cmd) : ofCmd cmd t.data = t := by
  cases t with
  | rd a n =>
    obtain ⟨sz, hsz, rfl⟩ := Option.map_eq_some_iff.1 (cmd?_rd a n ▸ h)
    obtain rfl := codeOfSize_eq_some_iff.1 hsz
    rw [ofCmd_of_read (rw_packFields ..), addr_packFields, sz_packFields]
  | wr a n d =>
    obtain ⟨sz, hsz, rfl⟩ := Option.map_eq_some_iff.1 (cmd?_wr a n d ▸ h)
    obtain rfl := codeOfSize_eq_some_iff.1 hsz
    rw [ofCmd_of_write (rw_packFields ..), addr_packFields, sz_packFields, data, BitVec.ofNat_toNat, BitVec.setWidth_eq]

end Transaction

/-- The word of a 4-byte access is the read or write bit and the `sz` code 10 above the address. -/
theorem packFields_four (rw : Bool) (a : Addr) :
    packFields rw 0b10#2 a = (if rw then 0xC00000#24 else 0x400000#24) + a.setWidth 24 := by
  have ha := a.isLt
  apply BitVec.eq_of_toNat_eq
  have hword : (packFields rw 0b10#2 a).toNat = (BitVec.ofBool rw ++ 0b10#2).toNat * 2 ^ 21 + a.toNat := by
    rw [packFields, BitVec.toNat_append, ← Nat.shiftLeft_add_eq_or_of_lt ha, Nat.shiftLeft_eq]
  rw [hword, BitVec.toNat_add, BitVec.toNat_setWidth]
  cases rw with
  | false =>
    show 2 * 2 ^ 21 + a.toNat = (0x400000 + a.toNat % 2 ^ 24) % 2 ^ 24
    omega
  | true =>
    show 6 * 2 ^ 21 + a.toNat = (0xC00000 + a.toNat % 2 ^ 24) % 2 ^ 24
    omega

/-- Settles O3, clause by clause: the fields of an unpacked word, the two printed words, the codable widths, and the
round trip of a packed transaction. -/
theorem commandWordFields : Obligations.CommandWordFields := by
  refine ⟨fun cmd data => ⟨?_, ?_, ?_, ?_⟩, fun a => ?_, fun a w => ?_, fun t => ?_, fun t cmd => ?_⟩
  · exact Transaction.cmd?_ofCmd cmd data
  · exact Transaction.addr_ofCmd cmd data
  · rw [Transaction.size_ofCmd, sizeOfCode_eq]
  · exact Transaction.ofCmd_eq_wr_iff cmd data
  · exact congrArg some (packFields_four false a)
  · exact congrArg some (packFields_four true a)
  · rw [Transaction.exists_cmd?_iff, exists_codeOfSize_iff]
  · exact Transaction.ofCmd_of_cmd?

end Sys2Proof
end

section
/-! PROOFS of the family 40_address_decoder: which transactions select a row (R102), and unmapped space (R109). -/

namespace Sys2Proof

/-- The decoder answers an operation exactly for an admitted transaction (R89, R101). -/
theorem exists_decode_ok_iff {c : Config} {es : List Engine} {t : Transaction} :
    (∃ i, decode c es t = .ok i) ↔ reject? c t = none := by
  simp only [decode_ok_iff, exists_and_left, exists_eq', and_true]

/-- Settles O4: the admission test, with its region clause read byte by byte. -/
theorem admittedExactlyWhen : Obligations.AdmittedExactlyWhen := by
  intro c es t
  rw [exists_decode_ok_iff, reject?_none_iff, inOneRegion_iff, and_comm (a := region c t.addr.toNat ≠ .unmapped → _)]

/-- In unmapped space an admitted width inside the space is admitted at every alignment (R57, R58). -/
theorem reject?_unmapped {c : Config} {t : Transaction} (hsize : t.size ∈ c.accessSizes)
    (hinside : t.addr.toNat + t.size ≤ 0x200000) (hfirst : region c t.addr.toNat = .unmapped)
    (hbytes : ∀ i < t.size, region c (t.addr.toNat + i) = .unmapped) : reject? c t = none :=
  reject?_none_iff.2 ⟨hsize, hinside, fun hmapped => absurd hfirst hmapped,
    inOneRegion_iff.2 fun i hi => (hbytes i hi).trans hfirst.symm⟩

namespace Machine

/-- An admitted read of unmapped space completes with zero of its width, and does nothing else (R104). -/
theorem step_unmapped_read {s : State} {a : Addr} {n : Nat} (hadmitted : reject? s.cfg (.rd a n) = none)
    (hreg : region s.cfg a.toNat = .unmapped) :
    step (s.issue (.rd a n)) = .next ((s.accept (.rd a n) s.pending).finish (.read n 0)) :=
  step_issue (decode_ok_iff.2 ⟨hadmitted, select_rd_unmapped hreg⟩)

/-- An admitted write of unmapped space completes, and does nothing else (R105). -/
theorem step_unmapped_write {s : State} {a : Addr} {n : Nat} {d : BitVec (8 * n)}
    (hadmitted : reject? s.cfg (.wr a n d) = none) (hreg : region s.cfg a.toNat = .unmapped) :
    step (s.issue (.wr a n d)) = .next (s.accept (.wr a n d) s.pending).finishWrite :=
  step_issue (decode_ok_iff.2 ⟨hadmitted, select_wr_unmapped hreg⟩)

/-- Settles O48: the bytes lie in `UNMAPPED`, so both accesses are admitted, and their rows keep configuration and
bus, of which the view is a function. -/
theorem unmappedReadsZeroAndDropsWrites : Obligations.UnmappedReadsZeroAndDropsWrites := by
  intro s a n d hsize hpos hinside houtside
  have hbytes : ∀ i < n, region s.cfg (a.toNat + i) = .unmapped := fun i hi => region_unmapped.2 (houtside i hi)
  have hfirst : region s.cfg a.toNat = .unmapped := hbytes 0 hpos
  constructor
  · have hadmitted : reject? s.cfg (.rd a n) = none := reject?_unmapped hsize hinside hfirst hbytes
    exact ⟨_, step_unmapped_read hadmitted hfirst, rfl, rfl, rfl, rfl⟩
  · have hadmitted : reject? s.cfg (.wr a n d) = none := reject?_unmapped hsize hinside hfirst hbytes
    exact ⟨_, step_unmapped_write hadmitted hfirst, rfl, rfl, rfl, rfl, State.byteAt_congr rfl rfl⟩

end Machine

end Sys2Proof
end

section
/-! PROOFS of the family 41_config_region: the walk of a configuration read in its closed form (R126), and what a
configuration write does (R130). -/

namespace Sys2Proof.Machine

/-! The closed form of `cfg_read`, clause by clause -/

/-- The slot of an attached engine reads its descriptor (R123). -/
theorem cfgRead_engine (c : Config) {es : List Engine} {a : Nat} {e : Engine} (ha : 0x0C ≤ a) (h4 : a % 4 = 0)
    (he : es[slotIndex a]? = some e) : cfgRead c es a = e.type.desc c := by
  obtain ⟨hk, -⟩ := List.getElem?_eq_some_iff.1 he
  rw [cfgRead_slot c es ha h4, if_pos hk, he, Option.elim_some]

/-- The first free slot reads the end marker (R124). -/
theorem cfgRead_end (c : Config) {es : List Engine} {a : Nat} (ha : 0x0C ≤ a) (h4 : a % 4 = 0)
    (hk : slotIndex a = es.length) : cfgRead c es a = 0 := by
  rw [cfgRead_slot c es ha h4, if_neg hk.not_lt, if_pos hk]

/-- Every slot beyond the end marker reads the sentinel (R125). -/
theorem cfgRead_beyond (c : Config) {es : List Engine} {a : Nat} (ha : 0x0C ≤ a) (h4 : a % 4 = 0)
    (hk : es.length < slotIndex a) : cfgRead c es a = c.chipIdBreak := by
  rw [cfgRead_slot c es ha h4, if_neg hk.not_gt, if_neg hk.ne']

/-- Settles O26: the read completes with `cfg_read` of its address; the first three cases of `cfg_read` give the fixed
words, and the slot lemmas the rest. -/
theorem configReadIsTheWalk : Obligations.ConfigReadIsTheWalk := by
  intro s a hc hlt h4
  refine ⟨⟨_, step_cfg_read hc hlt h4, rfl, rfl⟩, fun h => ?chipid, fun h => ?peek, fun h => ?fsi, fun ha => ?slots⟩
  case chipid => rw [h]; rfl
  case peek => rw [h]; rfl
  case fsi => rw [h]; rfl
  case slots => exact ⟨fun _ => cfgRead_engine _ ha h4, cfgRead_end _ ha h4, cfgRead_beyond _ ha h4⟩

/-! Configuration writes -/

/-- The words of the region are a function of the configuration and the engine list, not of the engines' states
(R35). -/
theorem State.wordAt_cfg_congr {s s' : State} (hc : s'.cfg = s.cfg) (he : s'.bus.engines = s.bus.engines) {b : Nat}
    (hb : b < 0x400) : s'.wordAt b = s.wordAt b := by
  rw [State.wordAt_cfg (region_cfg.2 hb), State.wordAt_cfg (region_cfg.2 hb), hc, he]

/-- Settles O28: the write's effect is R130's, and a step keeps the configuration and the engine list, of which the
region's words are a function. -/
theorem configWriteTriggersOnlyOnSentinel : Obligations.ConfigWriteTriggersOnlyOnSentinel := by
  intro s a d hc hlt h4
  obtain ⟨s', hstep, hreply, hcfg, hbus, hlog, -⟩ := step_cfg_write d hc hlt h4
  obtain ⟨-, hengines⟩ := step_keeps_layout hstep
  exact ⟨s', hstep, hreply, hcfg, hbus, hlog, fun b hb => State.wordAt_cfg_congr hcfg hengines hb⟩

end Sys2Proof.Machine
end

section
/-! PROOFS of the family 42_secondary_bus: the engine list along a step (R160), and ENUMERATE (R152). -/

namespace Sys2Proof.Machine

/-- Settles O15: each of the effects a row can have on the bus keeps the list, and no row writes the configuration. -/
theorem noStepChangesTheEngineList : Obligations.NoStepChangesTheEngineList := by
  intro s s' hstep
  obtain ⟨hcfg, hengines⟩ := step_keeps_layout hstep
  exact ⟨hengines, hcfg⟩

/-! ENUMERATE -/

@[simp] theorem Bus.length_enumerate (b : Bus) : b.enumerate.length = b.engines.length := by
  rw [Bus.enumerate, List.length_map, List.length_zipIdx]

/-- Entry `j` is the slot address of `j` with engine `j` (R85, R152). -/
theorem Bus.getElem?_enumerate (b : Bus) (j : Nat) :
    b.enumerate[j]? = b.engines[j]?.map fun e => (0x0C + 4 * j, e) := by
  rw [Bus.enumerate, List.getElem?_map, List.getElem?_zipIdx, Option.map_map, Nat.zero_add]
  rfl

/-- The enumeration is a function of the engine list, not of the engines' states (R152). -/
theorem Bus.enumerate_congr {b b' : Bus} (h : b'.engines = b.engines) : b'.enumerate = b.enumerate := by
  rw [Bus.enumerate, Bus.enumerate, h]

/-- Settles O33: entry by entry, and a cold reset and a write of an engine's state keep the list it is made from. -/
theorem enumerateGivesSlotsInOrder : Obligations.EnumerateGivesSlotsInOrder := by
  intro b
  refine ⟨b.length_enumerate, fun j e he => ?entry, ?coldReset, fun j i => ?setInst⟩
  case entry => rw [Bus.getElem?_enumerate, he, Option.map_some]
  case coldReset => exact Bus.enumerate_congr b.coldReset_engines
  case setInst => exact Bus.enumerate_congr (b.setInst_engines j i)

end Sys2Proof.Machine
end

section
/-! PROOFS of the family 43_scratchpad_engine: what a store to a Scratchpad's register writes and what it leaves
(R172). -/

namespace Sys2Proof.Machine

section
variable {s : State} {j : Nat} {e : Engine}

/-- The first word of a Scratchpad's window is its register (R155, R170). -/
theorem ScratchpadHolds.wordAt_register {c : Config} {es : List Engine} {v : Word} (h : ScratchpadHolds c es j v s)
    (hj : es[j]? = some e) (ht : e.type = .scratchpad) : s.wordAt (0xC00 + e.winBase) = some v := by
  obtain ⟨hI, -, rfl, -, hvalue⟩ := h
  obtain ⟨-, -, hsize⟩ := windowAddr_zero_toNat hI hj
  have hregister : 0xC00 + e.winBase - 0xC00 - e.winBase = 0 := by omega
  rw [State.wordAt_scratchpad hI hj ht (Nat.le_refl _) (by omega), if_pos hregister, Bus.scratch?_eq hvalue]

/-- Every byte of a Scratchpad's window above its register is a byte of the zero word (R171). -/
theorem State.byteAt_scratchpad_pad (hI : s.Inv) (hj : s.bus.engines[j]? = some e) (ht : e.type = .scratchpad) {b : Nat}
    (hlow : 0xC00 + e.winBase + 4 ≤ b) (hhigh : b < 0xC00 + e.winBase + e.winSize) :
    s.byteAt b = some (lane 0 (b % 4)) := by
  obtain ⟨-, hbase, -⟩ := windowAddr_zero_toNat hI hj
  have hpad : b - b % 4 - 0xC00 - e.winBase ≠ 0 := by omega
  rw [State.byteAt, State.wordAt_scratchpad hI hj ht (by omega) (by omega), if_neg hpad, Option.map_some]

/-- Replacing a Scratchpad's word leaves every byte but its register's four as it was: outside the window no state of
this engine shows, and above the register the window reads zero in both states (R171, R172). -/
theorem State.byteAt_store {s' : State} {d : Word} (hI : s.Inv) (hI' : s'.Inv) (hj : s.bus.engines[j]? = some e)
    (ht : e.type = .scratchpad) (hc : s'.cfg = s.cfg) (hb : s'.bus = s.bus.setInst j (.scratchpad d)) {b : Nat}
    (hout : ¬ (0xC00 + e.winBase ≤ b ∧ b < 0xC00 + e.winBase + 4)) : s'.byteAt b = s.byteAt b := by
  by_cases hwindow : 0xC00 + e.winBase ≤ b ∧ b < 0xC00 + e.winBase + e.winSize
  · have hlow : 0xC00 + e.winBase + 4 ≤ b := by omega
    have hj' : s'.bus.engines[j]? = some e := by rw [hb, Bus.setInst_engines, hj]
    rw [State.byteAt_scratchpad_pad hI hj ht hlow hwindow.2, State.byteAt_scratchpad_pad hI' hj' ht hlow hwindow.2]
  · exact State.byteAt_setInst hI hj hc hb hwindow

end

/-- Settles O39: the write completes with the word in the register, whose bytes are the word's lanes; the rest of the
view, the other engines and the other fields are as before. -/
theorem scratchpadStoreFrame : Obligations.ScratchpadStoreFrame := by
  intro s j e d hI hj ht
  obtain ⟨haddr, hbase, -⟩ := windowAddr_zero_toNat hI hj
  obtain ⟨s', hstep, -, hcfg, hbus, hlog, hpending⟩ := step_scratchpad_register_write hI hj ht d
  have hholds : ScratchpadHolds s.cfg s.bus.engines j d s' := by
    obtain ⟨t, hstep', -, hholds⟩ := step_store_holds hI hj ht d
    obtain rfl : s' = t := Host.Outcome.next.inj (hstep.symm.trans hstep')
    exact hholds
  obtain ⟨h0, h1, h2, h3⟩ :=
    byteLanesAreBigEndian s' (0xC00 + e.winBase) d (by omega) (hholds.wordAt_register hj ht)
  refine ⟨s', hstep, haddr, hbus, h0, h1, h2, h3, fun b hout => ?bytes, fun k hk => ?engines, ?list, hcfg, hlog,
    hpending⟩
  case bytes => exact State.byteAt_store hI hholds.inv hj ht hcfg hbus hout
  case engines => rw [hbus, Bus.setInst_inst, List.getElem?_set_ne hk.symm]
  case list => exact hholds.engines

end Sys2Proof.Machine
end

section
/-! PROOFS of the family 70_reset_and_hazards: the hub construction makes, and what a host first reads from it
(R212). -/

namespace Sys2Proof.Machine

/-- Construction attaches the configured list, each engine in the reset state of its own type (R151, R154). -/
theorem State.powerOn_inv {c : Config} (hc : c.wf = true) : (State.powerOn c).Inv where
  cfgOk := hc
  engines := by rw [State.powerOn_bus, Bus.construct_eq, State.powerOn_cfg]
  inst := by
    rw [State.powerOn_bus, Bus.construct_eq, List.forall₂_map_right_iff, List.forall₂_same]
    rintro ⟨_ | t, base, n⟩ - <;> trivial

/-- The first read of the Configuration Region returns what `cfg_read` says over the configured list (R126, R218). -/
theorem powerOn_cfg_read {c : Config} {a : Addr} {w : Word} (hc : c.wf = true) (hlt : a.toNat < 0x400)
    (h4 : a.toNat % 4 = 0) (hw : cfgRead c c.engines a.toNat = w) :
    ∃ s', step ((State.powerOn c).issue (.rd4 a)) = .next s' ∧ s'.reply = some (.read 4 w) := by
  refine ⟨_, step_cfg_read (s := State.powerOn c) hc hlt h4, ?_⟩
  rw [State.powerOn_bus, Bus.construct_eq, State.powerOn_cfg, hw]
  rfl

/-- The first read of the bootstrap Scratchpad's register, at the base of the Secondary Bus, returns its reset value
zero (R26, R211). -/
theorem powerOn_bootstrap_read {c : Config} (hc : c.wf = true) :
    ∃ s', step ((State.powerOn c).issue (.rd4 0xC00)) = .next s' ∧ s'.reply = some (.read 4 0) := by
  have hfirst : (State.powerOn c).bus.engines[0]? = some c.bootstrap := by
    rw [State.powerOn_bus, Bus.construct_eq]
    rfl
  have haddr : windowAddr (State.powerOn c).bus.engines 0 0 = 0xC00 := by
    rw [State.powerOn_bus, Bus.construct_eq]
    rfl
  rw [← haddr]
  exact step_scratchpad_register_read (State.powerOn_inv hc) hfirst rfl (Bus.construct_inst hfirst)

/-- Settles O46: the first three words are fixed; with no further engine, slot 0 is the bootstrap Scratchpad's, slot 1
holds the end marker and slot 2 lies beyond it; the register is in its reset state. -/
theorem firstReadsAfterPowerOn : Obligations.FirstReadsAfterPowerOn := by
  intro c a w hc hfurther hmem
  have hlength : c.engines.length = 1 := by rw [Config.engines, hfurther, List.length_singleton]
  simp only [List.mem_cons, Prod.mk.injEq, List.not_mem_nil, or_false] at hmem
  obtain ⟨rfl, rfl⟩ | ⟨rfl, rfl⟩ | ⟨rfl, rfl⟩ | ⟨rfl, rfl⟩ | ⟨rfl, rfl⟩ | ⟨rfl, rfl⟩ | ⟨rfl, rfl⟩ := hmem
  · exact powerOn_cfg_read hc (by decide) (by decide) rfl
  · exact powerOn_cfg_read hc (by decide) (by decide) rfl
  · exact powerOn_cfg_read hc (by decide) (by decide) rfl
  · have hslot : c.engines[slotIndex (0x00C : Addr).toNat]? = some c.bootstrap := rfl
    exact powerOn_cfg_read hc (by decide) (by decide) (cfgRead_engine c (by decide) (by decide) hslot)
  · have hfree : slotIndex (0x010 : Addr).toNat = c.engines.length := by rw [hlength]; rfl
    exact powerOn_cfg_read hc (by decide) (by decide) (cfgRead_end c (by decide) (by decide) hfree)
  · have hbeyond : c.engines.length < slotIndex (0x014 : Addr).toNat := by rw [hlength]; decide
    exact powerOn_cfg_read hc (by decide) (by decide) (cfgRead_beyond c (by decide) (by decide) hbeyond)
  · exact powerOn_bootstrap_read hc

end Sys2Proof.Machine
end

section
/-! PROOFS of the family other: the decoder and the encoder are inverse to each other (R89). -/

namespace Sys2Proof

/-! The row of a Secondary Bus offset, by what its window is -/

section
variable {es : List Engine} {o j : Nat} {e : Engine}

theorem selectLbusRead_hole (hhit : windowHit es o = none) : selectLbusRead es o = .lbusRdHole o := by
  rw [selectLbusRead, hhit]

theorem selectLbusWrite_hole (hhit : windowHit es o = none) (d : Word) :
    selectLbusWrite es o d = .lbusWrHole o d := by
  rw [selectLbusWrite, hhit]

theorem selectLbusRead_scratchpad (hhit : windowHit es o = some (j, e)) (ht : e.type = .scratchpad) :
    selectLbusRead es o = if o - e.winBase = 0 then .scrRdData j else .scrRdPad j (o - e.winBase) := by
  obtain ⟨type, base, size⟩ := e
  obtain rfl : type = .scratchpad := ht
  rw [selectLbusRead, hhit]

theorem selectLbusWrite_scratchpad (hhit : windowHit es o = some (j, e)) (ht : e.type = .scratchpad) (d : Word) :
    selectLbusWrite es o d = if o - e.winBase = 0 then .scrWrData j d else .scrWrPad j (o - e.winBase) d := by
  obtain ⟨type, base, size⟩ := e
  obtain rfl : type = .scratchpad := ht
  rw [selectLbusWrite, hhit]

theorem selectLbusRead_other {t : Nat} (hhit : windowHit es o = some (j, e)) (ht : e.type = .other t) :
    selectLbusRead es o = .lbusRdEng j (o - e.winBase) := by
  obtain ⟨type, base, size⟩ := e
  obtain rfl : type = .other t := ht
  rw [selectLbusRead, hhit]

theorem selectLbusWrite_other {t : Nat} (hhit : windowHit es o = some (j, e)) (ht : e.type = .other t) (d : Word) :
    selectLbusWrite es o d = .lbusWrEng j (o - e.winBase) d := by
  obtain ⟨type, base, size⟩ := e
  obtain rfl : type = .other t := ht
  rw [selectLbusWrite, hhit]

end

/-! From an operation to its transaction and back -/

/-- The transaction written for an operation whose condition holds is admitted (R102). -/
theorem reject?_encode {c : Config} {es : List Engine} {i : Instr} (hs : c.sizesOk = true)
    (he : enginesOk c es = true) (h4 : 4 ∈ c.accessSizes) (hw : i.wf c es = true) :
    reject? c (encode es i) = none := by
  have hadmitted : Laws.EncodeAdmitted.Statement i := by
    cases i with
    | cfgRdChipid => exact Laws.EncodeAdmitted.cfgRdChipid
    | cfgRdPeek => exact Laws.EncodeAdmitted.cfgRdPeek
    | cfgRdFsi => exact Laws.EncodeAdmitted.cfgRdFsi
    | cfgRdEngine k => exact Laws.EncodeAdmitted.cfgRdEngine k
    | cfgRdEnd => exact Laws.EncodeAdmitted.cfgRdEnd
    | cfgRdBreak k => exact Laws.EncodeAdmitted.cfgRdBreak k
    | cfgWrChipid d => exact Laws.EncodeAdmitted.cfgWrChipid d
    | cfgWrPeek d => exact Laws.EncodeAdmitted.cfgWrPeek d
    | cfgWrOther u d => exact Laws.EncodeAdmitted.cfgWrOther u d
    | slvRd o => exact Laws.EncodeAdmitted.slvRd o
    | slvWr o d => exact Laws.EncodeAdmitted.slvWr o d
    | scrRdData j => exact Laws.EncodeAdmitted.scrRdData j
    | scrRdPad j r => exact Laws.EncodeAdmitted.scrRdPad j r
    | scrWrData j d => exact Laws.EncodeAdmitted.scrWrData j d
    | scrWrPad j r d => exact Laws.EncodeAdmitted.scrWrPad j r d
    | lbusRdEng j r => exact Laws.EncodeAdmitted.lbusRdEng j r
    | lbusWrEng j r d => exact Laws.EncodeAdmitted.lbusWrEng j r d
    | lbusRdHole o => exact Laws.EncodeAdmitted.lbusRdHole o
    | lbusWrHole o d => exact Laws.EncodeAdmitted.lbusWrHole o d
    | unmRd a n => exact Laws.EncodeAdmitted.unmRd a n
    | unmWr a n d => exact Laws.EncodeAdmitted.unmWr a n d
  exact hadmitted c es hs he h4 hw

/-- An `RD4` in the Configuration Region selects one of its read rows. -/
theorem select_rd4_cfg {c : Config} (es : List Engine) {a : Addr} (h : a.toNat < 0x400) :
    select c es (.rd4 a) = selectCfgRead es a.toNat :=
  select_rd_cfg (region_cfg.2 h)

/-- A `WR4` in the Configuration Region selects one of its write rows. -/
theorem select_wr4_cfg {c : Config} (es : List Engine) {a : Addr} (h : a.toNat < 0x400) (d : Word) :
    select c es (.wr4 a d) = selectCfgWrite a.toNat d := by
  rw [Transaction.wr4, select_wr_cfg (region_cfg.2 h), BitVec.setWidth_eq]

/-- The slot index of a slot's own address (R85). -/
theorem slotIndex_slot (k : Nat) : slotIndex (0x0C + 4 * k) = k := by
  simp only [slotIndex, enumBase, enumStride]
  omega

/-- The read row of slot `k` (R123, R124, R125). -/
theorem select_rd4_slot {c : Config} (es : List Engine) {k : Nat} (hk : k ≤ 252) :
    select c es (.rd4 (BitVec.ofNat 21 (slotAddr k))) =
      if k < es.length then .cfgRdEngine k else if k = es.length then .cfgRdEnd else .cfgRdBreak k := by
  have haddr := Machine.slotAddr_toNat hk
  rw [select_rd4_cfg es (by omega), haddr, selectCfgRead, if_neg (by omega), if_neg (by omega), if_neg (by omega),
    slotIndex_slot]

/-- An offset inside the space is not wrapped by the 21 bits of `addr` (R51, R87). -/
theorem toNat_ofNat_addr {n : Nat} (h : n < 0x200000) : (BitVec.ofNat 21 n).toNat = n := by
  rw [BitVec.toNat_ofNat, Nat.mod_eq_of_lt h]

section
variable {c : Config} {es : List Engine}

/-- An `RD4` at a Secondary Bus offset selects the row of that offset. -/
theorem select_rd4_lbus (hs : c.sizesOk = true) {o : Nat} (ho : o < c.lbusSize) :
    select c es (.rd4 (BitVec.ofNat 21 (lbusBase + o))) = selectLbusRead es o := by
  have haddr : (BitVec.ofNat 21 (lbusBase + o)).toNat = 0xC00 + o :=
    toNat_ofNat_addr (by have := sizesOk_iff.1 hs; simp only [lbusBase]; omega)
  rw [Transaction.rd4, select_rd_lbus (region_lbus.2 (by omega)), haddr, Nat.add_sub_cancel_left]

/-- A `WR4` at a Secondary Bus offset selects the row of that offset. -/
theorem select_wr4_lbus (hs : c.sizesOk = true) {o : Nat} (ho : o < c.lbusSize) (d : Word) :
    select c es (.wr4 (BitVec.ofNat 21 (lbusBase + o)) d) = selectLbusWrite es o d := by
  have haddr : (BitVec.ofNat 21 (lbusBase + o)).toNat = 0xC00 + o :=
    toNat_ofNat_addr (by have := sizesOk_iff.1 hs; simp only [lbusBase]; omega)
  rw [Transaction.wr4, select_wr_lbus (region_lbus.2 (by omega)), haddr, Nat.add_sub_cancel_left, BitVec.setWidth_eq]

/-- An offset of engine `j`'s window, as an offset of the region: its address, its place, and the engine hit (R86). -/
theorem window_offset (he : enginesOk c es = true) {j r : Nat} {e : Engine} (hj : es[j]? = some e)
    (hr : r < e.winSize) : windowAddr es j r = BitVec.ofNat 21 (lbusBase + (e.winBase + r))
      ∧ e.winBase + r < c.lbusSize ∧ windowHit es (e.winBase + r) = some (j, e) := by
  obtain ⟨-, -, -, hend⟩ := windowOk_of_getElem? he hj
  refine ⟨?_, by omega, windowHit_of_covers (enginesOk_iff.1 he).2.2 hj (by omega)⟩
  rw [windowAddr, winBaseAt, hj, Nat.add_assoc]

/-- The slave window's addresses lie in its region (R83). -/
theorem region_slaveBase_add (hs : c.sizesOk = true) {o : Nat} (ho : o < c.slaveSize) :
    (BitVec.ofNat 21 (slaveBase + o)).toNat = 0x800 + o ∧ region c (0x800 + o) = .slave := by
  have hsize := (sizesOk_iff.1 hs).1
  exact ⟨toNat_ofNat_addr (by simp only [slaveBase]; omega), (region_slave hs).2 (by omega)⟩

/-- An `RD4` in a Scratchpad window reads its register at offset 0 and the zero words above it. -/
theorem select_rd4_scratchpad (hs : c.sizesOk = true) (he : enginesOk c es = true) {j r : Nat} {e : Engine}
    (hj : es[j]? = some e) (ht : e.type = .scratchpad) (hr : r < e.winSize) :
    select c es (.rd4 (windowAddr es j r)) = if r = 0 then .scrRdData j else .scrRdPad j r := by
  obtain ⟨haddr, hlt, hhit⟩ := window_offset he hj hr
  rw [haddr, select_rd4_lbus hs hlt, selectLbusRead_scratchpad hhit ht, Nat.add_sub_cancel_left]

/-- A `WR4` in a Scratchpad window stores at offset 0 and is dropped above it. -/
theorem select_wr4_scratchpad (hs : c.sizesOk = true) (he : enginesOk c es = true) {j r : Nat} {e : Engine}
    (hj : es[j]? = some e) (ht : e.type = .scratchpad) (hr : r < e.winSize) (d : Word) :
    select c es (.wr4 (windowAddr es j r) d) = if r = 0 then .scrWrData j d else .scrWrPad j r d := by
  obtain ⟨haddr, hlt, hhit⟩ := window_offset he hj hr
  rw [haddr, select_wr4_lbus hs hlt, selectLbusWrite_scratchpad hhit ht, Nat.add_sub_cancel_left]

/-- The operation's transaction selects the operation. -/
theorem select_encode {i : Instr} (hs : c.sizesOk = true) (he : enginesOk c es = true) (hw : i.wf c es = true) :
    select c es (encode es i) = i := by
  cases i with
  | cfgRdChipid => exact select_rd4_cfg es (a := 0x000) (by decide)
  | cfgRdPeek => exact select_rd4_cfg es (a := 0x004) (by decide)
  | cfgRdFsi => exact select_rd4_cfg es (a := 0x008) (by decide)
  | cfgRdEngine k =>
    obtain ⟨hlt, hk⟩ := of_decide_eq_true hw
    rw [encode, select_rd4_slot es hk, if_pos hlt]
  | cfgRdEnd =>
    rw [encode, select_rd4_slot es (of_decide_eq_true hw), if_neg (Nat.lt_irrefl _), if_pos rfl]
  | cfgRdBreak k =>
    obtain ⟨hlt, hk⟩ := of_decide_eq_true hw
    rw [encode, select_rd4_slot es hk, if_neg hlt.not_gt, if_neg hlt.ne']
  | cfgWrChipid d => exact select_wr4_cfg es (a := 0x000) (by decide) d
  | cfgWrPeek d => exact select_wr4_cfg es (a := 0x004) (by decide) d
  | cfgWrOther u d =>
    obtain ⟨hlow, hhigh⟩ := of_decide_eq_true hw
    have haddr : (BitVec.ofNat 21 (4 * u)).toNat = 4 * u := toNat_ofNat_addr (by omega)
    have hunit : 4 * u / 4 = u := by omega
    rw [encode, select_wr4_cfg es (by omega), haddr, selectCfgWrite_eq, hunit, if_neg (by omega), if_neg (by omega)]
  | slvRd o =>
    obtain ⟨haddr, hreg⟩ := region_slaveBase_add hs (of_decide_eq_true hw).2
    rw [encode, Transaction.rd4, select_rd_slave (by rw [haddr]; exact hreg), haddr,
      Nat.add_sub_cancel_left]
  | slvWr o d =>
    obtain ⟨haddr, hreg⟩ := region_slaveBase_add hs (of_decide_eq_true hw).2
    rw [encode, Transaction.wr4, select_wr_slave (by rw [haddr]; exact hreg), haddr,
      Nat.add_sub_cancel_left, BitVec.setWidth_eq]
  | scrRdData j =>
    obtain ⟨e, hj, ht, -, hr⟩ := hitsScratchpad_iff.1 hw
    rw [encode, select_rd4_scratchpad hs he hj ht hr, if_pos rfl]
  | scrRdPad j r =>
    obtain ⟨hhits, hpad⟩ := Bool.and_eq_true_iff.1 hw
    obtain ⟨e, hj, ht, -, hr⟩ := hitsScratchpad_iff.1 hhits
    rw [encode, select_rd4_scratchpad hs he hj ht hr, if_neg (of_decide_eq_true hpad)]
  | scrWrData j d =>
    obtain ⟨e, hj, ht, -, hr⟩ := hitsScratchpad_iff.1 hw
    rw [encode, select_wr4_scratchpad hs he hj ht hr, if_pos rfl]
  | scrWrPad j r d =>
    obtain ⟨hhits, hpad⟩ := Bool.and_eq_true_iff.1 hw
    obtain ⟨e, hj, ht, -, hr⟩ := hitsScratchpad_iff.1 hhits
    rw [encode, select_wr4_scratchpad hs he hj ht hr, if_neg (of_decide_eq_true hpad)]
  | lbusRdEng j r =>
    obtain ⟨e, t, hj, ht, -, hr⟩ := hitsOther_iff.1 hw
    obtain ⟨haddr, hlt, hhit⟩ := window_offset he hj hr
    rw [encode, haddr, select_rd4_lbus hs hlt, selectLbusRead_other hhit ht, Nat.add_sub_cancel_left]
  | lbusWrEng j r d =>
    obtain ⟨e, t, hj, ht, -, hr⟩ := hitsOther_iff.1 hw
    obtain ⟨haddr, hlt, hhit⟩ := window_offset he hj hr
    rw [encode, haddr, select_wr4_lbus hs hlt, selectLbusWrite_other hhit ht, Nat.add_sub_cancel_left]
  | lbusRdHole o =>
    obtain ⟨-, ho, hhit⟩ := inHole_iff.1 hw
    rw [encode, select_rd4_lbus hs ho, selectLbusRead_hole hhit]
  | lbusWrHole o d =>
    obtain ⟨-, ho, hhit⟩ := inHole_iff.1 hw
    rw [encode, select_wr4_lbus hs ho, selectLbusWrite_hole hhit]
  | unmRd a n =>
    obtain ⟨-, -, hreg, -⟩ := inUnmapped_iff.1 hw
    exact select_rd_unmapped hreg
  | unmWr a n d =>
    obtain ⟨-, -, hreg, -⟩ := inUnmapped_iff.1 hw
    exact select_wr_unmapped hreg

/-- Settles O1: the operation's transaction is admitted, and the row it selects is the operation's own. -/
theorem decodeOfEncode : Obligations.DecodeOfEncode := fun _ _ _ hs he h4 hw =>
  decode_ok_iff.2 ⟨reject?_encode hs he h4 hw, select_encode hs he hw⟩

/-! From a transaction to its operation and back -/

/-- An admitted read of a mapped region is an `RD4` at an aligned address (R55). -/
theorem rd4_of_mapped {a : Addr} {n : Nat} (hr : reject? c (.rd a n) = none) (hreg : region c a.toNat ≠ .unmapped) :
    Transaction.rd a n = .rd4 a ∧ a.toNat % 4 = 0 := by
  obtain ⟨-, -, hshape, -⟩ := reject?_none_iff.1 hr
  obtain ⟨hn, haligned⟩ := hshape hreg
  obtain rfl : n = 4 := hn
  exact ⟨rfl, haligned⟩

/-- An address at or above a base is the one its offset from the base gives. -/
theorem ofNat_add_sub_addr {a : Addr} {base : Nat} (h : base ≤ a.toNat) :
    BitVec.ofNat 21 (base + (a.toNat - base)) = a := by
  rw [Nat.add_sub_cancel' h, BitVec.ofNat_toNat, BitVec.setWidth_eq]

/-- The operation meets its condition and is written as the transaction: what the decoder owes of the row it selects
(R89). -/
def Instr.Names (c : Config) (es : List Engine) (t : Transaction) (i : Instr) : Prop :=
  i.wf c es = true ∧ encode es i = t

/-- The read row of an aligned configuration address names its `RD4`. -/
theorem selectCfgRead_names (hlen : es.length ≤ 252) {a : Addr} (hlt : a.toNat < 0x400) (h4 : a.toNat % 4 = 0) :
    (selectCfgRead es a.toNat).Names c es (.rd4 a) := by
  unfold selectCfgRead
  split_ifs with h0 hpeek hfsi hengine hend
  · obtain rfl : a = 0x000 := BitVec.eq_of_toNat_eq h0
    exact ⟨rfl, rfl⟩
  · obtain rfl : a = 0x004 := BitVec.eq_of_toNat_eq hpeek
    exact ⟨rfl, rfl⟩
  · obtain rfl : a = 0x008 := BitVec.eq_of_toNat_eq hfsi
    exact ⟨rfl, rfl⟩
  all_goals
    obtain ⟨hslot, hk⟩ : slotAddr (slotIndex a.toNat) = a.toNat ∧ slotIndex a.toNat ≤ 252 := by
      simp only [slotAddr, slotIndex, enumBase, enumStride]
      omega
    have haddr : Transaction.rd4 (BitVec.ofNat 21 (slotAddr (slotIndex a.toNat))) = .rd4 a := by
      rw [hslot, BitVec.ofNat_toNat, BitVec.setWidth_eq]
  · exact ⟨decide_eq_true ⟨hengine, hk⟩, haddr⟩
  · exact ⟨decide_eq_true hlen, by rw [encode, ← hend, haddr]⟩
  · exact ⟨decide_eq_true ⟨by omega, hk⟩, haddr⟩

/-- The write row of an aligned configuration address names its `WR4`. -/
theorem selectCfgWrite_names {a : Addr} (hlt : a.toNat < 0x400) (h4 : a.toNat % 4 = 0) (d : Word) :
    (selectCfgWrite a.toNat d).Names c es (.wr4 a d) := by
  rw [selectCfgWrite_eq]
  split_ifs with h0 h1
  · obtain rfl : a = 0x000 := BitVec.eq_of_toNat_eq (show a.toNat = 0 by omega)
    exact ⟨rfl, rfl⟩
  · obtain rfl : a = 0x004 := BitVec.eq_of_toNat_eq (show a.toNat = 4 by omega)
    exact ⟨rfl, rfl⟩
  · refine ⟨decide_eq_true (by omega), ?_⟩
    have haddr : 4 * (a.toNat / 4) = a.toNat := by omega
    rw [encode, haddr, BitVec.ofNat_toNat, BitVec.setWidth_eq]

/-- An aligned address in an engine's window, by the offset inside the window (R86). -/
theorem windowAddr_of_hit (he : enginesOk c es = true) {a : Addr} (hlow : 0xC00 ≤ a.toNat) (h4 : a.toNat % 4 = 0)
    {j : Nat} {e : Engine} (hhit : windowHit es (a.toNat - 0xC00) = some (j, e)) :
    es[j]? = some e ∧ windowAddr es j (a.toNat - 0xC00 - e.winBase) = a
      ∧ (a.toNat - 0xC00 - e.winBase) % 4 = 0 ∧ a.toNat - 0xC00 - e.winBase < e.winSize := by
  obtain ⟨hj, hbase, hend⟩ := windowHit_some hhit
  obtain ⟨hbase4, -, -, -⟩ := windowOk_of_getElem? he hj
  refine ⟨hj, ?_, by omega, by omega⟩
  rw [windowAddr, winBaseAt, hj, Nat.add_assoc, Nat.add_sub_cancel' hbase]
  exact ofNat_add_sub_addr hlow

/-- The read row of an aligned Secondary Bus address names its `RD4`. -/
theorem selectLbusRead_names (he : enginesOk c es = true) {a : Addr} (hreg : region c a.toNat = .lbus)
    (h4 : a.toNat % 4 = 0) : (selectLbusRead es (a.toNat - 0xC00)).Names c es (.rd4 a) := by
  obtain ⟨hlow, hhigh⟩ := region_lbus.1 hreg
  cases hhit : windowHit es (a.toNat - 0xC00) with
  | none =>
    rw [selectLbusRead_hole hhit]
    exact ⟨inHole_iff.2 ⟨by omega, by omega, hhit⟩, congrArg Transaction.rd4 (ofNat_add_sub_addr hlow)⟩
  | some hit =>
    obtain ⟨j, e⟩ := hit
    obtain ⟨hj, haddr, hr4, hr⟩ := windowAddr_of_hit he hlow h4 hhit
    cases ht : e.type with
    | other t =>
      rw [selectLbusRead_other hhit ht]
      exact ⟨hitsOther_iff.2 ⟨e, t, hj, ht, hr4, hr⟩, congrArg Transaction.rd4 haddr⟩
    | scratchpad =>
      have hhits := hitsScratchpad_iff.2 ⟨e, hj, ht, hr4, hr⟩
      rw [selectLbusRead_scratchpad hhit ht]
      split_ifs with hpad
      · rw [hpad] at hhits haddr
        exact ⟨hhits, congrArg Transaction.rd4 haddr⟩
      · exact ⟨Bool.and_eq_true_iff.2 ⟨hhits, decide_eq_true hpad⟩, congrArg Transaction.rd4 haddr⟩

/-- The write row of an aligned Secondary Bus address names its `WR4`. -/
theorem selectLbusWrite_names (he : enginesOk c es = true) {a : Addr} (hreg : region c a.toNat = .lbus)
    (h4 : a.toNat % 4 = 0) (d : Word) : (selectLbusWrite es (a.toNat - 0xC00) d).Names c es (.wr4 a d) := by
  obtain ⟨hlow, hhigh⟩ := region_lbus.1 hreg
  cases hhit : windowHit es (a.toNat - 0xC00) with
  | none =>
    rw [selectLbusWrite_hole hhit]
    exact ⟨inHole_iff.2 ⟨by omega, by omega, hhit⟩, congrArg (Transaction.wr4 · d) (ofNat_add_sub_addr hlow)⟩
  | some hit =>
    obtain ⟨j, e⟩ := hit
    obtain ⟨hj, haddr, hr4, hr⟩ := windowAddr_of_hit he hlow h4 hhit
    cases ht : e.type with
    | other t =>
      rw [selectLbusWrite_other hhit ht]
      exact ⟨hitsOther_iff.2 ⟨e, t, hj, ht, hr4, hr⟩, congrArg (Transaction.wr4 · d) haddr⟩
    | scratchpad =>
      have hhits := hitsScratchpad_iff.2 ⟨e, hj, ht, hr4, hr⟩
      rw [selectLbusWrite_scratchpad hhit ht]
      split_ifs with hpad
      · rw [hpad] at hhits haddr
        exact ⟨hhits, congrArg (Transaction.wr4 · d) haddr⟩
      · exact ⟨Bool.and_eq_true_iff.2 ⟨hhits, decide_eq_true hpad⟩, congrArg (Transaction.wr4 · d) haddr⟩

/-- An aligned address of the primary-slave window, by its offset inside the window (R106, R107). -/
theorem slaveOffset_ok (hs : c.sizesOk = true) {a : Addr} (hreg : region c a.toNat = .slave) (h4 : a.toNat % 4 = 0) :
    ((a.toNat - 0x800) % 4 = 0 ∧ a.toNat - 0x800 < c.slaveSize)
      ∧ BitVec.ofNat 21 (slaveBase + (a.toNat - 0x800)) = a := by
  obtain ⟨hlow, hhigh⟩ := (region_slave hs).1 hreg
  exact ⟨by omega, ofNat_add_sub_addr hlow⟩

/-- The row an admitted transaction selects names it, region by region. -/
theorem select_names (hs : c.sizesOk = true) (he : enginesOk c es = true) {t : Transaction}
    (hr : reject? c t = none) : (select c es t).Names c es t := by
  obtain ⟨hsize, hinside, -, hone⟩ := reject?_none_iff.1 hr
  have hlen := (enginesOk_iff.1 he).1.2
  cases t with
  | rd a n =>
    cases hreg : region c a.toNat with
    | unmapped =>
      rw [select_rd_unmapped hreg]
      exact ⟨inUnmapped_iff.2 ⟨hsize, hinside, hreg, hone⟩, rfl⟩
    | cfg =>
      obtain ⟨hrd4, h4⟩ := rd4_of_mapped hr (by simp [hreg])
      rw [select_rd_cfg hreg, hrd4]
      exact selectCfgRead_names hlen (region_cfg.1 hreg) h4
    | slave =>
      obtain ⟨hrd4, h4⟩ := rd4_of_mapped hr (by simp [hreg])
      obtain ⟨hoffset, haddr⟩ := slaveOffset_ok hs hreg h4
      rw [select_rd_slave hreg, hrd4]
      exact ⟨by rw [Instr.wf, decide_eq_true hoffset], congrArg Transaction.rd4 haddr⟩
    | lbus =>
      obtain ⟨hrd4, h4⟩ := rd4_of_mapped hr (by simp [hreg])
      rw [select_rd_lbus hreg, hrd4]
      exact selectLbusRead_names he hreg h4
  | wr a n d =>
    cases hreg : region c a.toNat with
    | unmapped =>
      rw [select_wr_unmapped hreg]
      exact ⟨inUnmapped_iff.2 ⟨hsize, hinside, hreg, hone⟩, rfl⟩
    | cfg =>
      obtain ⟨hwr4, h4⟩ := Machine.wr4_of_mapped hr (by simp [hreg])
      rw [select_wr_cfg hreg, hwr4]
      exact selectCfgWrite_names (region_cfg.1 hreg) h4 _
    | slave =>
      obtain ⟨hwr4, h4⟩ := Machine.wr4_of_mapped hr (by simp [hreg])
      obtain ⟨hoffset, haddr⟩ := slaveOffset_ok hs hreg h4
      rw [select_wr_slave hreg, hwr4]
      exact ⟨by rw [Instr.wf, decide_eq_true hoffset], congrArg (Transaction.wr4 · _) haddr⟩
    | lbus =>
      obtain ⟨hwr4, h4⟩ := Machine.wr4_of_mapped hr (by simp [hreg])
      rw [select_wr_lbus hreg, hwr4]
      exact selectLbusWrite_names he hreg h4 _

/-- Settles O2: the row the decoder answers is the one selected, which names its transaction. -/
theorem encodeOfDecode : Obligations.EncodeOfDecode := by
  intro c es t i hs he hdecode
  obtain ⟨hadmitted, rfl⟩ := decode_ok_iff.1 hdecode
  exact select_names hs he hadmitted

end

end Sys2Proof
end

section
/-! PROOFS of the family other: what every step answers (R13), keeps (R154), takes (R68) and emits (R200). -/

namespace Sys2Proof.Machine

/-! The invariant -/

/-- Settles O12: the bus effect of a row leaves every engine a state of its type, and no row writes the rest. -/
theorem everyStepKeepsInvariant : Obligations.EveryStepKeepsInvariant := fun _ _ hI hstep => hI.of_step hstep

/-- Settles O13; the reset state's configuration is forced into R8. -/
theorem constructionMeetsInvariant : Obligations.ConstructionMeetsInvariant :=
  ⟨fun _ hc => State.powerOn_inv hc, State.powerOn_inv (Platform.meetR8_wf _)⟩

/-- Settles O45, by the two answers of the construction's test. -/
theorem constructionIsTotalOnGoodConfigurations : Obligations.ConstructionIsTotalOnGoodConfigurations := by
  intro c
  refine ⟨fun hgood => ?_, fun hbad => ?_⟩
  · rw [State.powerOn?, if_pos hgood]
  · rw [State.powerOn?, hbad, if_neg Bool.false_ne_true]

/-! One step -/

/-- Settles O9. -/
theorem idleStepChangesNothing : Obligations.IdleStepChangesNothing := by
  intro s hidle
  rw [step, hidle]

/-- A step on a pending transaction that decodes runs its row, on the state in which it was taken (R101). -/
theorem step_of_pending {s : State} {t : Transaction} {rest : List Transaction} {i : Instr}
    (hp : s.pending = t :: rest) (hd : decode s.cfg s.bus.engines t = .ok i) : step s = exec i (s.accept t rest) := by
  simp only [step, hp, hd]

/-- Settles O8: taking the transaction writes the queue, the counter, and the trace at the hook's choice. -/
theorem stepRunsDecodedRow : Obligations.StepRunsDecodedRow := by
  intro s t rest i hp hd
  refine ⟨s.accept t rest, step_of_pending hp hd, rfl, rfl, rfl, rfl, rfl, rfl, ?_⟩
  rw [State.accept_trace]
  split_ifs
  · exact .inr rfl
  · exact .inl rfl

/-- Settles O11: only taking the transaction writes the queue, and no row does. -/
theorem transactionsTakenInOrder : Obligations.TransactionsTakenInOrder := by
  intro s s' hstep
  obtain ⟨hidle, rfl⟩ | ⟨t, rest, i, hp, -, hx⟩ := step_next hstep
  · rw [hidle, List.tail_nil]
  · obtain ⟨-, -, hpending⟩ := exec_frame hx
    rw [hpending, State.accept_pending, hp, List.tail_cons]

/-- A pending transaction that is admitted completes in a hub, by the row it selects (R13, R101). -/
theorem step_pending_completes {s : State} (hI : s.Inv) {t : Transaction} {rest : List Transaction}
    (hp : s.pending = t :: rest) (hr : reject? s.cfg t = none) :
    ∃ s', step s = .next s' ∧ exec (select s.cfg s.bus.engines t) (s.accept t rest) = .next s' := by
  obtain ⟨s', hx⟩ := exec_select_completes (hI.accept t rest) hr
  exact ⟨s', (step_of_pending hp (decode_ok_iff.2 ⟨hr, rfl⟩)).trans hx, hx⟩

/-- Settles O10: an admitted transaction's row completes in a hub, with a reply of its kind; any other is refused. -/
theorem twoOutcomesOnly : Obligations.TwoOutcomesOnly := by
  intro s t rest hI hp
  refine ⟨fun hadmitted => ?_, fun r hr => by simp only [step, hp, decode_error_iff.2 hr]⟩
  obtain ⟨s', hstep, hx⟩ := step_pending_completes hI hp hadmitted
  refine ⟨s', hstep, ?_⟩
  have hreply := exec_reply hx
  cases t with
  | rd a n => rwa [readWidth_select_rd _ hadmitted] at hreply
  | wr a n d => rwa [readWidth_select_wr] at hreply

/-- Settles O16: the operation is the row its own transaction selects, and that transaction is admitted. -/
theorem selectedRowCompletes : Obligations.SelectedRowCompletes := by
  intro s i hI hw
  obtain ⟨-, -, -, -, h4⟩ := Config.wf_parts hI.cfgOk
  have hadmitted := reject?_encode hI.sizesOk hI.enginesOk h4 hw
  rw [← select_encode hI.sizesOk hI.enginesOk hw]
  exact exec_select_completes hI hadmitted

/-! Runs -/

/-- In a hub whose host stays inside the interface, a step goes on and keeps both (R13, R154). -/
theorem step_of_ready {s : State} (hI : s.Inv) (hready : s.Ready) :
    ∃ s', step s = .next s' ∧ s'.Inv ∧ s'.Ready ∧ s'.cfg = s.cfg ∧ s'.bus.engines = s.bus.engines
      ∧ s'.pending = s.pending.tail := by
  obtain ⟨s', hstep⟩ : ∃ s', step s = .next s' := by
    cases hp : s.pending with
    | nil => exact ⟨s, idleStepChangesNothing s hp⟩
    | cons t rest =>
      have hadmitted : reject? s.cfg t = none := hready t (hp ▸ List.mem_cons_self)
      obtain ⟨s', hstep, -⟩ := step_pending_completes hI hp hadmitted
      exact ⟨s', hstep⟩
  obtain ⟨hcfg, hengines⟩ := step_keeps_layout hstep
  have hpending := transactionsTakenInOrder s s' hstep
  refine ⟨s', hstep, hI.of_step hstep, fun t ht => ?_, hcfg, hengines, hpending⟩
  rw [hcfg]
  exact hready t (List.mem_of_mem_tail (hpending ▸ ht))

/-- Settles O14, by induction on the length of the run. -/
theorem admittedRunNeverStops : Obligations.AdmittedRunNeverStops := by
  intro n
  induction n with
  | zero => exact fun s hI hready => ⟨s, rfl, hI, hready, rfl, rfl, rfl⟩
  | succ n ih =>
    intro s hI hready
    obtain ⟨s₁, hstep, hI₁, hready₁, hcfg₁, hengines₁, hpending₁⟩ := step_of_ready hI hready
    obtain ⟨s', hrun, hI', hready', hcfg, hengines, hpending⟩ := ih s₁ hI₁ hready₁
    refine ⟨s', (run_succ hstep n).trans hrun, hI', hready', hcfg.trans hcfg₁, hengines.trans hengines₁, ?_⟩
    rw [hpending, hpending₁, List.drop_tail]

/-- A run that answers a next state took a first step that did. -/
theorem run_succ_next {n : Nat} {s s' : State} (h : Host.Core.run core (n + 1) s = .next s') :
    ∃ s₁, step s = .next s₁ ∧ Host.Core.run core n s₁ = .next s' := by
  cases hstep : step s with
  | next s₁ => exact ⟨s₁, rfl, (run_succ hstep n).symm.trans h⟩
  | fault r => cases r
  | refused r =>
    have hcore : core.step s = .refused r := hstep
    simp only [Host.Core.run] at h
    rw [hcore] at h
    cases h

/-- A run keeps the configuration and the engine list (R17, R160). -/
theorem run_keeps_layout {n : Nat} {s s' : State} (h : Host.Core.run core n s = .next s') :
    s'.cfg = s.cfg ∧ s'.bus.engines = s.bus.engines := by
  induction n generalizing s with
  | zero => cases h; exact ⟨rfl, rfl⟩
  | succ n ih =>
    obtain ⟨s₁, hstep, hrun⟩ := run_succ_next h
    obtain ⟨hcfg₁, hengines₁⟩ := step_keeps_layout hstep
    obtain ⟨hcfg, hengines⟩ := ih hrun
    exact ⟨hcfg.trans hcfg₁, hengines.trans hengines₁⟩

/-- Settles O29: the region's words are a function of what a run keeps. -/
theorem configurationWordsNeverChange : Obligations.ConfigurationWordsNeverChange := by
  intro n s s' hrun a ha
  obtain ⟨hcfg, hengines⟩ := run_keeps_layout hrun
  have hsame : s'.wordAt a = s.wordAt a := State.wordAt_cfg_congr hcfg hengines ha
  exact ⟨hsame, by rw [hsame, State.wordAt_cfg (region_cfg.2 ha)]⟩

end Sys2Proof.Machine
end

section
/-! PROOFS of the family other: the result of each row (R120 to R133, R104 to R107, R156 to R159, R170 to R173), and
ATTACH (R151). -/

namespace Sys2Proof.Machine

/-! Rows whose meaning depends on the engine an operand names -/

theorem exec_cfgRdEngine {s : State} {k : Nat} {e : Engine} (he : s.bus.engines[k]? = some e) :
    exec (.cfgRdEngine k) s = .next (s.finishWord (e.type.desc s.cfg)) := by
  simp only [exec, execCfgRdEngine, he]

theorem exec_cfgRdEngine_none {s : State} {k : Nat} (he : s.bus.engines[k]? = none) :
    exec (.cfgRdEngine k) s = .refused .noSuchEngine := by
  simp only [exec, execCfgRdEngine, he]

section
variable {s : State} {j : Nat}

theorem exec_scrRdData {v : Word} (hv : s.bus.scratch? j = some v) :
    exec (.scrRdData j) s = .next (s.finishWord v) := by
  simp only [exec, execScrRdData, hv]

theorem exec_scrWrData {v : Word} (hv : s.bus.scratch? j = some v) (d : Word) :
    exec (.scrWrData j d) s = .next (s.setInst j (.scratchpad d)).finishWrite := by
  simp only [exec, execScrWrData, hv]

theorem exec_scrRdData_none (hv : s.bus.scratch? j = none) :
    exec (.scrRdData j) s = .refused .noSuchEngine := by
  simp only [exec, execScrRdData, hv]

theorem exec_scrWrData_none (hv : s.bus.scratch? j = none) (d : Word) :
    exec (.scrWrData j d) s = .refused .noSuchEngine := by
  simp only [exec, execScrWrData, hv]

theorem exec_lbusRdEng {t code : Nat} (hv : s.bus.other? j = some (t, code)) (r : Nat) :
    exec (.lbusRdEng j r) s = .next
      ((s.setInst j (.other (Config.otherRead t code r).2)).finishWord (Config.otherRead t code r).1) := by
  simp only [exec, execLbusRdEng, hv]

theorem exec_lbusWrEng {t code : Nat} (hv : s.bus.other? j = some (t, code)) (r : Nat) (d : Word) :
    exec (.lbusWrEng j r d) s = .next (s.setInst j (.other (Config.otherWrite t code r d))).finishWrite := by
  simp only [exec, execLbusWrEng, hv]

theorem exec_lbusRdEng_none (hv : s.bus.other? j = none) (r : Nat) :
    exec (.lbusRdEng j r) s = .refused .noSuchEngine := by
  simp only [exec, execLbusRdEng, hv]

theorem exec_lbusWrEng_none (hv : s.bus.other? j = none) (r : Nat) (d : Word) :
    exec (.lbusWrEng j r d) s = .refused .noSuchEngine := by
  simp only [exec, execLbusWrEng, hv]

/-! A row that completes found its engine. -/

variable {s' : State}

theorem exec_cfgRdEngine_next {k : Nat} (h : exec (.cfgRdEngine k) s = .next s') :
    ∃ e, s.bus.engines[k]? = some e ∧ s' = s.finishWord (e.type.desc s.cfg) := by
  cases he : s.bus.engines[k]? with
  | none => rw [exec_cfgRdEngine_none he] at h; cases h
  | some e => rw [exec_cfgRdEngine he] at h; cases h; exact ⟨e, rfl, rfl⟩

theorem exec_scrRdData_next (h : exec (.scrRdData j) s = .next s') :
    ∃ v, s.bus.scratch? j = some v ∧ s' = s.finishWord v := by
  cases hv : s.bus.scratch? j with
  | none => rw [exec_scrRdData_none hv] at h; cases h
  | some v => rw [exec_scrRdData hv] at h; cases h; exact ⟨v, rfl, rfl⟩

theorem exec_scrWrData_next {d : Word} (h : exec (.scrWrData j d) s = .next s') :
    ∃ v, s.bus.scratch? j = some v ∧ s' = (s.setInst j (.scratchpad d)).finishWrite := by
  cases hv : s.bus.scratch? j with
  | none => rw [exec_scrWrData_none hv] at h; cases h
  | some v => rw [exec_scrWrData hv] at h; cases h; exact ⟨v, rfl, rfl⟩

theorem exec_lbusRdEng_next {r : Nat} (h : exec (.lbusRdEng j r) s = .next s') :
    ∃ t code, s.bus.other? j = some (t, code) ∧ s' =
      (s.setInst j (.other (Config.otherRead t code r).2)).finishWord (Config.otherRead t code r).1 := by
  cases hv : s.bus.other? j with
  | none => rw [exec_lbusRdEng_none hv] at h; cases h
  | some p => rw [exec_lbusRdEng hv] at h; cases h; exact ⟨p.1, p.2, rfl, rfl⟩

theorem exec_lbusWrEng_next {r : Nat} {d : Word} (h : exec (.lbusWrEng j r d) s = .next s') :
    ∃ t code, s.bus.other? j = some (t, code)
      ∧ s' = (s.setInst j (.other (Config.otherWrite t code r d))).finishWrite := by
  cases hv : s.bus.other? j with
  | none => rw [exec_lbusWrEng_none hv] at h; cases h
  | some p => rw [exec_lbusWrEng hv] at h; cases h; exact ⟨p.1, p.2, rfl, rfl⟩

/-- An index that holds no Scratchpad's state names no register (R26). -/
theorem Bus.scratch?_none {b : Bus} (h : ∀ v, b.inst[j]? ≠ some (.scratchpad v)) : b.scratch? j = none :=
  Option.eq_none_iff_forall_ne_some.2 fun v hv => h v (Bus.scratch?_some hv)

end

/-! The obligations on results -/

/-- Settles O17: each row completes with its constant. -/
theorem constantConfigReadResults : Obligations.ConstantConfigReadResults :=
  fun _ _ => ⟨rfl, rfl, rfl, rfl, rfl⟩

/-- Settles O18. -/
theorem engineDescriptorReadResult : Obligations.EngineDescriptorReadResult :=
  fun _ _ => ⟨fun _ he => exec_cfgRdEngine he, exec_cfgRdEngine_none⟩

/-- The bus-reset trigger on the sentinel (R130). -/
theorem State.trigger_sentinel (s : State) : s.trigger s.cfg.chipIdBreak = { s with bus := s.bus.coldReset } := by
  rw [State.trigger, if_pos rfl]

/-- The bus-reset trigger on any other word (R130). -/
theorem State.trigger_of_ne {s : State} {d : Word} (hd : d ≠ s.cfg.chipIdBreak) : s.trigger d = s := by
  rw [State.trigger, if_neg hd]

/-- Settles O19, by the two cases of the trigger. -/
theorem triggerWriteResults : Obligations.TriggerWriteResults := by
  intro s d
  refine ⟨rfl, fun hd => ?_, fun hd => ?_⟩
  · rw [hd, exec, execCfgWrChipid, State.trigger_sentinel]
    rfl
  · rw [exec, execCfgWrChipid, State.trigger_of_ne hd]
    rfl

/-- The hook's choice (R200): the event offered is appended or dropped. -/
theorem State.offer_trace_cases (s : State) (ev : TraceEvent) :
    (s.offer ev).trace = s.trace ∨ (s.offer ev).trace = s.trace ++ [ev] := by
  rw [State.offer_trace]
  split_ifs
  · exact .inr rfl
  · exact .inl rfl

/-- Settles O20: the row offers one event and completes. -/
theorem otherConfigWriteResult : Obligations.OtherConfigWriteResult := fun s u d =>
  ⟨(s.offer (.unrecognisedWrite (4 * u) 4 d.toNat)).trace, State.offer_trace_cases s _, rfl⟩

/-- Settles O21: the word read is the component's answer, whatever it is. -/
theorem slaveWindowResults : Obligations.SlaveWindowResults :=
  fun s o _ => ⟨⟨Config.slaveAnswer s.draws s.slaveLog o, rfl⟩, rfl⟩

/-- Settles O22, by whether index `j` holds a Scratchpad's state. -/
theorem scratchpadDataResults : Obligations.ScratchpadDataResults := by
  intro s j d
  refine ⟨fun v hv => ?_, fun hnone => ?_⟩
  · have hreg := Bus.scratch?_eq hv
    exact ⟨exec_scrRdData hreg, exec_scrWrData hreg d⟩
  · have hreg := Bus.scratch?_none hnone
    exact ⟨exec_scrRdData_none hreg, exec_scrWrData_none hreg d⟩

/-- Settles O23: each row only completes. -/
theorem noRegisterResults : Obligations.NoRegisterResults :=
  fun _ _ _ _ _ _ _ _ => ⟨rfl, rfl, rfl, rfl, rfl, rfl⟩

/-- Settles O24: the type's own functions on the state at index `j`. -/
theorem otherEngineResults : Obligations.OtherEngineResults := by
  intro s j r t code e d he ht hi
  have hother := Bus.other?_eq he ht hi
  exact ⟨exec_lbusRdEng hother r, exec_lbusWrEng hother r d⟩

/-- Of the five effects on the bus, only the first belongs to a row other than the two triggers, the store and the rows
of engines of another type. -/
theorem BusEffect.eq_bus {i : Instr} {s : State} {b : Bus} (h : BusEffect i s b) (hchipid : ∀ d, i ≠ .cfgWrChipid d)
    (hpeek : ∀ d, i ≠ .cfgWrPeek d) (hstore : ∀ j d, i ≠ .scrWrData j d) (hread : ∀ j r, i ≠ .lbusRdEng j r)
    (hwrite : ∀ j r d, i ≠ .lbusWrEng j r d) : b = s.bus := by
  cases h with
  | same => rfl
  | reset d hi _ => exact (hi.elim (hchipid d) (hpeek d)).elim
  | store j d _ hi _ => exact (hstore j d hi).elim
  | otherRead j r _ _ hi _ => exact (hread j r hi).elim
  | otherWrite j r _ _ d hi _ => exact (hwrite j r d hi).elim

/-- Settles O25: these rows leave the bus, and the view is a function of configuration and bus. -/
theorem rowsThatStoreNothing : Obligations.RowsThatStoreNothing := by
  intro i s s' hx hchipid hpeek hstore hread hwrite
  obtain ⟨hcfg, -, hpending⟩ := exec_frame hx
  have hbus : s'.bus = s.bus := (exec_bus hx).eq_bus hchipid hpeek hstore hread hwrite
  exact ⟨hcfg, hbus, hpending, State.byteAt_congr hcfg hbus⟩

/-! ATTACH -/

/-- Settles O34: the enumeration numbers the list, so an appended engine is numbered by the old length. -/
theorem attachAppendsOneSlot : Obligations.AttachAppendsOneSlot := by
  intro b e
  refine ⟨rfl, rfl, ?_⟩
  rw [Bus.enumerate, Bus.attach_engines, List.zipIdx_append, List.map_append, Nat.zero_add]
  rfl

end Sys2Proof.Machine
end

section
/-! PROOFS of the family other: the table of the Configuration Region (R123 to R127, R32, R33) and the host's scan of it
(R95). -/

namespace Sys2Proof.Machine

/-- The table read at a slot's address (R123 to R125). -/
theorem step_slot_read {s : State} {k : Nat} (hc : s.cfg.wf = true) (hk : k ≤ 252) :
    step (s.issue (.rd4 (BitVec.ofNat 21 (slotAddr k)))) =
      .next ((s.accept (.rd4 (BitVec.ofNat 21 (slotAddr k))) s.pending).finishWord
        (cfgRead s.cfg s.bus.engines (0x0C + 4 * k))) := by
  have haddr := slotAddr_toNat hk
  rw [step_cfg_read hc (by omega) (by omega), haddr]

/-- The slot of engine `k` reads its type's descriptor (R123). -/
theorem cfgRead_slot_engine (c : Config) {es : List Engine} {k : Nat} {e : Engine} (he : es[k]? = some e) :
    cfgRead c es (0x0C + 4 * k) = e.type.desc c :=
  cfgRead_engine c (by omega) (by omega) (by rw [slotIndex_slot, he])

/-- The slot after the last engine's reads the end marker (R124). -/
theorem cfgRead_slot_end (c : Config) (es : List Engine) : cfgRead c es (0x0C + 4 * es.length) = 0 :=
  cfgRead_end c (by omega) (by omega) (slotIndex_slot _)

/-- With non-zero descriptors and a non-zero sentinel, the end marker is the one zero of the table (R127). -/
theorem cfgRead_eq_zero_iff {c : Config} {es : List Engine} {a : Nat} (hbreak : c.chipIdBreak ≠ 0)
    (hdesc : ∀ e ∈ es, e.type.desc c ≠ 0) (ha : 0x0C ≤ a) (h4 : a % 4 = 0) :
    cfgRead c es a = 0 ↔ a = 0x0C + 4 * es.length := by
  obtain ⟨k, rfl⟩ : ∃ k, a = 0x0C + 4 * k := ⟨(a - 0x0C) / 4, by omega⟩
  have hslot := slotIndex_slot k
  rcases Nat.lt_trichotomy k es.length with hlt | rfl | hgt
  · have hengine := cfgRead_slot_engine c (List.getElem?_eq_getElem hlt)
    exact iff_of_false (hengine ▸ hdesc _ (List.getElem_mem hlt)) (by omega)
  · exact iff_of_true (cfgRead_slot_end c es) rfl
  · rw [cfgRead_beyond c ha h4 (by omega)]
    exact iff_of_false hbreak (by omega)

/-- Settles O27: the walk's word at the address, zero at the end marker alone and the sentinel after it. -/
theorem oneEndMarkerThenSentinel : Obligations.OneEndMarkerThenSentinel := by
  intro s a hc hdesc hlt h4
  obtain ⟨hbreak, -⟩ := Config.wf_parts hc
  refine ⟨_, _, step_cfg_read hc hlt h4, rfl, fun ha => cfgRead_eq_zero_iff hbreak hdesc ha h4, fun hbeyond => ?_⟩
  exact cfgRead_beyond _ (by omega) h4 (by simp only [slotIndex, enumBase, enumStride]; omega)

/-- Settles O30: both slots read the descriptor of the one type. -/
theorem descriptorReadDependsOnTypeAlone : Obligations.DescriptorReadDependsOnTypeAlone := by
  intro s t k m e f hc hcfg hengines he hf htype hk hm
  refine ⟨_, _, step_slot_read hc hk, step_slot_read (hcfg ▸ hc) hm, ?_, ?_⟩
  · rw [State.finishWord_reply, State.finishWord_reply, hcfg, hengines, cfgRead_slot_engine _ he,
      cfgRead_slot_engine _ hf, htype]
  · rw [State.finishWord_reply, cfgRead_slot_engine _ he]

/-- The descriptor constants are non-zero and keep their flag (R8, R33). -/
theorem descriptors_of_wf {c : Config} (h : c.wf = true) {w : Word}
    (hw : w = c.peekDescriptor ∨ w = c.fsiDescriptor ∨ w = c.scratchpadDescriptor) :
    w ≠ 0 ∧ c.layout.continues w = true := by
  simp only [Config.wf, Config.descriptorOk, Bool.and_eq_true, decide_eq_true_eq] at h
  obtain ⟨⟨⟨⟨⟨⟨-, hpeek⟩, hfsi⟩, hscratch⟩, -⟩, -⟩, -⟩ := h
  rcases hw with rfl | rfl | rfl
  · exact hpeek
  · exact hfsi
  · exact hscratch

/-- Settles O31: each of these addresses reads one of the descriptor constants. -/
theorem descriptorsKeepTheContinuationFlag : Obligations.DescriptorsKeepTheContinuationFlag := by
  intro s a hI ha
  have hc := hI.cfgOk
  rcases ha with rfl | rfl | ⟨k, e, he, ht, rfl⟩
  · exact ⟨_, s.cfg.peekDescriptor, step_cfg_read hc (by decide) (by decide), rfl, descriptors_of_wf hc (.inl rfl)⟩
  · exact ⟨_, s.cfg.fsiDescriptor, step_cfg_read hc (by decide) (by decide), rfl,
      descriptors_of_wf hc (.inr (.inl rfl))⟩
  · have hlen := (enginesOk_iff.1 hI.enginesOk).1.2
    have hk := (List.getElem?_eq_some_iff.1 he).1
    refine ⟨_, s.cfg.scratchpadDescriptor, step_slot_read hc (by omega), ?_, descriptors_of_wf hc (.inr (.inr rfl))⟩
    rw [State.finishWord_reply, cfgRead_slot_engine _ he, ht]
    rfl

/-! SCAN -/

/-- A read of a non-zero slot sends the scan on to the next one. -/
theorem scanSlots_ne_zero {fuel k : Nat} {s s' : State} {w : Word}
    (hstep : step (s.issue (.rd4 (BitVec.ofNat 21 (slotAddr k)))) = .next s') (hreply : s'.reply = some (.read 4 w))
    (hw : w ≠ 0) : scanSlots (fuel + 1) k s = scanSlots fuel (k + 1) s' := by
  have hne : ¬ s'.reply = some (.read 4 0) := by
    rw [hreply]
    simpa using hw
  rw [State.issue] at hstep
  rw [scanSlots, hstep]
  exact if_neg hne

/-- A read of zero ends the scan. -/
theorem scanSlots_zero {fuel k : Nat} {s s' : State}
    (hstep : step (s.issue (.rd4 (BitVec.ofNat 21 (slotAddr k)))) = .next s') (hreply : s'.reply = some (.read 4 0)) :
    scanSlots (fuel + 1) k s = some (k, s') := by
  rw [State.issue] at hstep
  rw [scanSlots, hstep]
  exact if_pos hreply

/-- From slot `k` on, the scan passes the engines not yet passed and stops at the end marker. -/
theorem scanSlots_from {c : Config} {es : List Engine} (hc : c.wf = true) (hlen : es.length ≤ 252)
    (hdesc : ∀ e ∈ es, e.type.desc c ≠ 0) (fuel : Nat) {k : Nat} {s : State} (hcfg : s.cfg = c)
    (hengines : s.bus.engines = es) (hk : k ≤ es.length) (hfuel : es.length < k + fuel) :
    ∃ s', scanSlots fuel k s = some (es.length, s') ∧ s'.bus = s.bus ∧ s'.cfg = s.cfg := by
  induction fuel generalizing k s with
  | zero => omega
  | succ fuel ih =>
    have hstep := step_slot_read (s := s) (k := k) (hcfg ▸ hc) (by omega)
    rw [hcfg, hengines] at hstep
    rcases Nat.lt_or_eq_of_le hk with hlt | rfl
    · have hword : cfgRead c es (0x0C + 4 * k) ≠ 0 := by
        rw [cfgRead_slot_engine c (List.getElem?_eq_getElem hlt)]
        exact hdesc _ (List.getElem_mem hlt)
      rw [scanSlots_ne_zero hstep rfl hword]
      exact ih hcfg hengines hlt (by omega)
    · rw [cfgRead_slot_end] at hstep
      exact ⟨_, scanSlots_zero hstep rfl, rfl, rfl⟩

/-- Settles O32: at most 252 engines and the end marker. -/
theorem scanFindsEveryEngine : Obligations.ScanFindsEveryEngine := by
  intro s hI hdesc
  have hlen := (enginesOk_iff.1 hI.enginesOk).1.2
  exact scanSlots_from hI.cfgOk hlen hdesc 253 rfl rfl (Nat.zero_le _) (by omega)

end Sys2Proof.Machine
end

section
/-! PROOFS of the family other: the Secondary Bus region (R86, R155 to R159), a cold reset's effect on the view (R153),
the primary-slave window (R106, R107), and the word a read returns (R35, R38). -/

namespace Sys2Proof.Machine

/-! Windows -/

/-- Settles O35: the hit is a function of the offset, and each of the two engines is the one hit. -/
theorem atMostOneEngineHit : Obligations.AtMostOneEngineHit := by
  intro c es o j k e f hok he hf heo hfo
  obtain ⟨-, -, hdisjoint⟩ := enginesOk_iff.1 hok
  have hhit := windowHit_of_covers hdisjoint he heo
  have hhit' : some (j, e) = some (k, f) := hhit.symm.trans (windowHit_of_covers hdisjoint hf hfo)
  exact ⟨congrArg Prod.fst (Option.some.inj hhit'), hhit⟩

/-! Accesses to the region -/

/-- An aligned access to a hole reads zero and drops a write (R158, R159). -/
theorem step_hole {s : State} {a : Addr} (hc : s.cfg.wf = true) (h4 : a.toNat % 4 = 0)
    (hreg : region s.cfg a.toNat = .lbus) (hhit : windowHit s.bus.engines (a.toNat - 0xC00) = none) (d : Word) :
    step (s.issue (.rd4 a)) = .next ((s.accept (.rd4 a) s.pending).finishWord 0)
      ∧ step (s.issue (.wr4 a d)) = .next (s.accept (.wr4 a d) s.pending).finishWrite := by
  constructor
  · rw [step_rd4 hc h4, Transaction.rd4, select_rd_lbus hreg, selectLbusRead_hole hhit]
    rfl
  · rw [step_wr4 hc d h4, Transaction.wr4, select_wr_lbus hreg, selectLbusWrite_hole hhit]
    rfl

/-- Settles O36, by what the offset hits: a Scratchpad, an engine of another type, or a hole. -/
theorem secondaryBusDispatch : Obligations.SecondaryBusDispatch := by
  intro s a d hI h4 hlow hhigh
  refine ⟨fun j e hj hbase hend => ⟨fun ht => ?scratchpad, fun t ht => ?other⟩, fun hnone => ?hole⟩
  case scratchpad =>
    obtain ⟨v, s', t', hv, hread, hbus, -, -, -, hreply, hwrite, hreply', -, -, -, hbus'⟩ :=
      step_scratchpad hI h4 hj ht (by omega) (by omega) d
    exact ⟨v, s', t', hv, hread, hbus, hreply, hwrite, hreply', hbus'⟩
  case other =>
    obtain ⟨code, s', t', hcode, hread, hbus, -, -, -, hreply, hwrite, hreply', -, -, -, hbus'⟩ :=
      step_other hI h4 hj ht (by omega) (by omega) d
    exact ⟨code, s', t', hcode, hread, hbus, hreply, hwrite, hreply', hbus'⟩
  case hole =>
    obtain ⟨hread, hwrite⟩ := step_hole hI.cfgOk h4 (region_lbus.2 ⟨hlow, hhigh⟩) (windowHit_none.2 hnone) d
    exact ⟨_, _, hread, rfl, rfl, hwrite, rfl, rfl⟩

/-- A completed access to the window of an engine of another type writes at most that engine's state (R156, R157). -/
theorem step_other_next {s s' : State} {a : Addr} {d : Word} {j t : Nat} {e : Engine} (hI : s.Inv)
    (hj : s.bus.engines[j]? = some e) (ht : e.type = .other t) (hlow : 0xC00 + e.winBase ≤ a.toNat)
    (hhigh : a.toNat < 0xC00 + e.winBase + e.winSize)
    (hstep : step (s.issue (.rd4 a)) = .next s' ∨ step (s.issue (.wr4 a d)) = .next s') :
    s'.cfg = s.cfg ∧ s'.slaveLog = s.slaveLog ∧ ∃ code, s'.bus = s.bus.setInst j (.other code) := by
  obtain ⟨-, -, -, hend⟩ := windowOk_of_getElem? hI.enginesOk hj
  have hmapped : region s.cfg a.toNat ≠ .unmapped := by
    rw [region_lbus.2 (by omega)]
    decide
  have h4 : a.toNat % 4 = 0 := by
    rcases hstep with hstep | hstep
    · exact (rd4_of_mapped (step_issue_next hstep).1 hmapped).2
    · exact (wr4_of_mapped (step_issue_next hstep).1 hmapped).2
  obtain ⟨code, u, u', -, hread, hbus, hcfg, hlog, -, -, hwrite, -, hcfg', hlog', -, hbus'⟩ :=
    step_other hI h4 hj ht hlow hhigh d
  rcases hstep with hstep | hstep
  · obtain rfl : u = s' := Host.Outcome.next.inj (hread.symm.trans hstep)
    exact ⟨hcfg, hlog, _, hbus⟩
  · obtain rfl : u' = s' := Host.Outcome.next.inj (hwrite.symm.trans hstep)
    exact ⟨hcfg', hlog', _, hbus'⟩

/-- Settles O37: the write of one engine's state is no write of another's, and shows in its own window only. -/
theorem otherEngineAccessFrame : Obligations.OtherEngineAccessFrame := by
  intro s s' a d j t e hI hj ht hlow hhigh hstep
  obtain ⟨hcfg, hlog, code, hbus⟩ := step_other_next hI hj ht hlow hhigh hstep
  refine ⟨hcfg, ?list, hlog, fun k hk => ?engines, fun b hout => State.byteAt_setInst hI hj hcfg hbus hout⟩
  case list => rw [hbus, Bus.setInst_engines]
  case engines => rw [hbus, Bus.setInst_inst, List.getElem?_set_ne hk.symm]

/-! The view after a cold reset -/

/-- Every lane of the zero word is zero. -/
theorem lane_zero (i : Nat) : lane 0 i = 0 := by
  simp [lane]

/-- A cold reset clears every Scratchpad's register (R153, R174). -/
theorem Bus.scratch?_coldReset {b : Bus} {j : Nat} {e : Engine} (hj : b.engines[j]? = some e)
    (ht : e.type = .scratchpad) : b.coldReset.scratch? j = some 0 := by
  apply Bus.scratch?_eq
  rw [Bus.coldReset_inst, List.getElem?_map, hj, Option.map_some, ht, resetState]

/-- The window of a Scratchpad whose register holds zero shows zero bytes. -/
theorem State.byteAt_scratchpad_zero {s : State} {j : Nat} {e : Engine} (hI : s.Inv) (hj : s.bus.engines[j]? = some e)
    (ht : e.type = .scratchpad) (hzero : s.bus.scratch? j = some 0) {b : Nat} (hlow : 0xC00 + e.winBase ≤ b)
    (hhigh : b < 0xC00 + e.winBase + e.winSize) : s.byteAt b = some 0 := by
  obtain ⟨hbase, -, -, -⟩ := windowOk_of_getElem? hI.enginesOk hj
  rw [State.byteAt, State.wordAt_scratchpad hI hj ht (by omega) (by omega), hzero, ite_self, Option.map_some, lane_zero]

/-- A byte outside every window is a function of the configuration and the engine list, not of the engines' states:
windows are aligned, so its word is outside every window too. -/
theorem State.byteAt_outside_windows {s s' : State} (hI : s.Inv) (hc : s'.cfg = s.cfg)
    (he : s'.bus.engines = s.bus.engines) {b : Nat}
    (hout : ∀ e ∈ s.bus.engines, ¬ (0xC00 + e.winBase ≤ b ∧ b < 0xC00 + e.winBase + e.winSize)) :
    s'.byteAt b = s.byteAt b := by
  unfold State.byteAt
  congr 1
  have hreg' : region s'.cfg (b - b % 4) = region s.cfg (b - b % 4) := by rw [hc]
  cases hreg : region s.cfg (b - b % 4) with
  | cfg => exact State.wordAt_cfg_congr hc he (region_cfg.1 hreg)
  | slave => rw [State.wordAt_slave hreg, State.wordAt_slave (hreg'.trans hreg)]
  | unmapped => rw [State.wordAt_unmapped hreg, State.wordAt_unmapped (hreg'.trans hreg)]
  | lbus =>
    obtain ⟨hlow, -⟩ := region_lbus.1 hreg
    have hhit : windowHit s.bus.engines (b - b % 4 - 0xC00) = none := by
      refine windowHit_none.2 fun e hmem hcovers => hout e hmem ?_
      obtain ⟨j, hj⟩ := List.getElem?_of_mem hmem
      obtain ⟨hbase, hsize, -, -⟩ := windowOk_of_getElem? hI.enginesOk hj
      omega
    rw [State.wordAt_lbus hreg, State.wordAt_lbus (hreg'.trans hreg), Bus.wordAt_hole hhit,
      Bus.wordAt_hole (by rw [he]; exact hhit)]

/-- Settles O42: every register is zero, and the reset keeps configuration and engine list. -/
theorem coldResetClearsScratchpadsAndNothingOutsideWindows :
    Obligations.ColdResetClearsScratchpadsAndNothingOutsideWindows := by
  intro s a hI ha
  obtain ⟨s', hstep, -, hcfg, hbus, hlog, -⟩ := step_sentinel hI.cfgOk ha
  have hengines : s'.bus.engines = s.bus.engines := by rw [hbus, Bus.coldReset_engines]
  refine ⟨s', hstep, hlog, fun e hmem ht b hlow hhigh => ?_, fun b hout => ?_⟩
  · obtain ⟨j, hj⟩ := List.getElem?_of_mem hmem
    exact State.byteAt_scratchpad_zero ((hI.issue _).of_step hstep) (hengines ▸ hj) ht
      (hbus ▸ Bus.scratch?_coldReset hj ht) hlow hhigh
  · exact State.byteAt_outside_windows hI hcfg hengines hout

/-! The primary-slave window -/

/-- Settles O49: both rows of the window deliver the access at its offset. -/
theorem slaveWindowDelegates : Obligations.SlaveWindowDelegates := by
  intro s a d hc hlow hhigh h4
  obtain ⟨-, -, hsizes, -⟩ := Config.wf_parts hc
  have hreg : region s.cfg a.toNat = .slave := (region_slave hsizes).2 ⟨hlow, hhigh⟩
  rw [step_rd4 hc h4, step_wr4 hc d h4, Transaction.rd4, Transaction.wr4, select_rd_slave hreg, select_wr_slave hreg,
    BitVec.setWidth_eq]
  exact ⟨⟨_, _, rfl, rfl, rfl, rfl, rfl⟩, _, rfl, rfl, rfl, rfl, rfl⟩

/-! The word a read returns -/

/-- An aligned read of the Secondary Bus region returns the word shown there (R155). -/
theorem step_lbus_read_shown {s : State} {a : Addr} (hI : s.Inv) (h4 : a.toNat % 4 = 0)
    (hreg : region s.cfg a.toNat = .lbus) :
    ∃ s' w, step (s.issue (.rd4 a)) = .next s' ∧ s'.reply = some (.read 4 w) ∧ s.wordAt a.toNat = some w := by
  obtain ⟨hlow, -⟩ := region_lbus.1 hreg
  cases hhit : windowHit s.bus.engines (a.toNat - 0xC00) with
  | none =>
    refine ⟨_, 0, (step_hole hI.cfgOk h4 hreg hhit 0).1, rfl, ?_⟩
    rw [State.wordAt_lbus hreg, Bus.wordAt_hole hhit]
  | some hit =>
    obtain ⟨j, e⟩ := hit
    obtain ⟨hj, hbase, hend⟩ := windowHit_some hhit
    cases ht : e.type with
    | scratchpad =>
      obtain ⟨v, s', -, hv, hstep, -, -, -, -, hreply, -⟩ := step_scratchpad hI h4 hj ht (by omega) (by omega) 0
      refine ⟨s', _, hstep, hreply, ?_⟩
      rw [State.wordAt_scratchpad hI hj ht (by omega) (by omega), Bus.scratch?_eq hv]
      split_ifs <;> rfl
    | other t =>
      obtain ⟨code, s', -, hcode, hstep, -, -, -, -, hreply, -⟩ := step_other hI h4 hj ht (by omega) (by omega) 0
      refine ⟨s', _, hstep, hreply, ?_⟩
      have hother := Bus.other?_eq hj ht hcode
      obtain ⟨type, base, size⟩ := e
      obtain rfl : type = .other t := ht
      rw [State.wordAt_lbus hreg, Bus.wordAt_other hhit, hother, Option.map_some]

/-- Settles O50, region by region. -/
theorem readReturnsTheWordShown : Obligations.ReadReturnsTheWordShown := by
  intro s a hI h4 hslave
  cases hreg : region s.cfg a.toNat with
  | cfg => exact ⟨_, _, step_cfg_read hI.cfgOk (region_cfg.1 hreg) h4, rfl, State.wordAt_cfg hreg⟩
  | slave => exact absurd hreg hslave
  | lbus => exact step_lbus_read_shown hI h4 hreg
  | unmapped =>
    obtain ⟨-, -, -, -, hsize⟩ := Config.wf_parts hI.cfgOk
    have hadmitted : reject? s.cfg (.rd4 a) = none := reject?_aligned_word hI.sizesOk hsize rfl h4
    exact ⟨_, 0, step_unmapped_read hadmitted hreg, rfl, State.wordAt_unmapped hreg⟩

end Sys2Proof.Machine
end

section
/-! PROOFS of the family other: back-to-back sequences of writes, resets and reads (R221). -/

namespace Sys2Proof.Machine

/-! Back-to-back sequences on a Scratchpad's register -/

section
variable {c : Config} {es : List Engine} {j : Nat} {v : Word} {s : State} {rest : List Transaction}

/-- A listed Scratchpad holds some word, whatever the host issues (R26). -/
theorem scratchpadHolds_of_engine {e : Engine} (hI : s.Inv) (hj : s.bus.engines[j]? = some e)
    (ht : e.type = .scratchpad) : ∃ v, ScratchpadHolds s.cfg s.bus.engines j v s := by
  obtain ⟨v, hv⟩ := scratch?_of_engine hI hj ht
  exact ⟨v, hI, rfl, rfl, ⟨e, hj, ht⟩, Bus.scratch?_some hv⟩

/-- The next transaction stores a word in the register. -/
theorem ScratchpadHolds.step_store (h : ScratchpadHolds c es j v s) {x : Word}
    (hp : s.pending = .wr4 (windowAddr es j 0) x :: rest) :
    ∃ s', step s = .next s' ∧ s'.pending = rest ∧ ScratchpadHolds c es j x s' := by
  obtain ⟨hI, rfl, rfl, ⟨e, hj, ht⟩, -⟩ := h
  obtain ⟨s', hstep, hpending, h'⟩ := step_store_holds (hI.withPending rest) hj ht x
  exact ⟨s', State.issue_of_pending hp ▸ hstep, hpending, h'⟩

/-- The next transaction resets the bus. -/
theorem ScratchpadHolds.step_reset (h : ScratchpadHolds c es j v s)
    (hp : s.pending = .wr4 0x000 c.chipIdBreak :: rest) :
    ∃ s', step s = .next s' ∧ s'.pending = rest ∧ ScratchpadHolds c es j 0 s' := by
  obtain ⟨hI, rfl, rfl, ⟨e, hj, ht⟩, -⟩ := h
  obtain ⟨s', hstep, hpending, h'⟩ := step_sentinel_holds (hI.withPending rest) hj ht (.inl rfl)
  exact ⟨s', State.issue_of_pending hp ▸ hstep, hpending, h'⟩

/-- The next transaction reads the register: its word is returned, and only the reply is written. -/
theorem ScratchpadHolds.step_read (h : ScratchpadHolds c es j v s)
    (hp : s.pending = .rd4 (windowAddr es j 0) :: rest) :
    step s = .next ((s.accept (.rd4 (windowAddr es j 0)) rest).finishWord v) := by
  obtain ⟨hI, rfl, rfl, ⟨e, hj, ht⟩, hv⟩ := h
  obtain ⟨haddr, hbase, hsize⟩ := windowAddr_zero_toNat hI hj
  obtain ⟨-, -, -, -, h4⟩ := Config.wf_parts hI.cfgOk
  have hadmitted : reject? s.cfg (.rd4 (windowAddr s.bus.engines j 0)) = none :=
    reject?_aligned_word hI.sizesOk h4 rfl (by rw [Transaction.addr_rd4]; omega)
  have hselect := select_rd4_scratchpad hI.sizesOk hI.enginesOk hj ht (r := 0) (by omega)
  rw [step_of_pending hp (decode_ok_iff.2 ⟨hadmitted, hselect⟩)]
  exact exec_scrRdData (Bus.scratch?_eq hv)

/-- The next transaction is an aligned read of the Configuration Region: its word is returned, and the register keeps
its own (R126). -/
theorem ScratchpadHolds.step_cfg_read (h : ScratchpadHolds c es j v s) {b : Addr} (hlt : b.toNat < 0x400)
    (h4 : b.toNat % 4 = 0) (hp : s.pending = .rd4 b :: rest) :
    ∃ s', step s = .next s' ∧ s'.reply = some (.read 4 (cfgRead c es b.toNat)) ∧ s'.bus = s.bus ∧ s'.pending = rest
      ∧ ScratchpadHolds c es j v s' := by
  obtain ⟨hI, rfl, rfl, hengine, hv⟩ := h
  have hstep := Machine.step_cfg_read (s := { s with pending := rest }) hI.cfgOk hlt h4
  rw [State.issue_of_pending hp] at hstep
  exact ⟨_, hstep, rfl, rfl, rfl, hI.of_step hstep, rfl, rfl, hengine, hv⟩

end

/-- The next transaction resets the bus, of any hub. -/
theorem step_pending_reset {s : State} {rest : List Transaction} (hc : s.cfg.wf = true)
    (hp : s.pending = .wr4 0x000 s.cfg.chipIdBreak :: rest) :
    ∃ s', step s = .next s' ∧ s'.cfg = s.cfg ∧ s'.bus = s.bus.coldReset ∧ s'.pending = rest := by
  obtain ⟨s', hstep, -, hcfg, hbus, -, hpending⟩ := step_sentinel (s := { s with pending := rest }) hc (.inl rfl)
  exact ⟨s', State.issue_of_pending hp ▸ hstep, hcfg, hbus, hpending⟩

/-- Settles O47, each sequence by its steps in turn. -/
theorem backToBackSequences : Obligations.BackToBackSequences := by
  intro s j e x b hI hj ht hlt h4 reg brk
  obtain ⟨v, hholds⟩ := scratchpadHolds_of_engine hI hj ht
  refine ⟨?storeResetRead, ?resetStoreRead, ?resetReset, ?cfgReadRead, ?storeCfgRead⟩
  case storeResetRead =>
    obtain ⟨s₁, hstore, hp₁, h₁⟩ := (hholds.withPending _).step_store rfl
    obtain ⟨s₂, hreset, hp₂, h₂⟩ := h₁.step_reset hp₁
    exact ⟨_, ((run_succ hstore 2).trans (run_succ hreset 1)).trans (run_succ (h₂.step_read hp₂) 0), rfl⟩
  case resetStoreRead =>
    obtain ⟨s₁, hreset, hp₁, h₁⟩ := (hholds.withPending _).step_reset rfl
    obtain ⟨s₂, hstore, hp₂, h₂⟩ := h₁.step_store hp₁
    exact ⟨_, ((run_succ hreset 2).trans (run_succ hstore 1)).trans (run_succ (h₂.step_read hp₂) 0), rfl⟩
  case resetReset =>
    obtain ⟨s', hone, -, hbus, -⟩ := step_pending_reset (s := { s with pending := [brk] }) hI.cfgOk rfl
    obtain ⟨s₁, hfirst, hcfg₁, hbus₁, hp₁⟩ :=
      step_pending_reset (s := { s with pending := [brk, brk] }) hI.cfgOk rfl
    obtain ⟨s'', hsecond, -, hbus₂, -⟩ := step_pending_reset (s := s₁) (hcfg₁ ▸ hI.cfgOk) (by rw [hcfg₁, hp₁])
    refine ⟨s', s'', run_succ hone 0, (run_succ hfirst 1).trans (run_succ hsecond 0), ?_⟩
    rw [hbus₂, hbus₁, hbus, Bus.coldReset_coldReset]
  case cfgReadRead =>
    obtain ⟨s₁, hcfgRead, -, hbus₁, hp₁, h₁⟩ :=
      (hholds.withPending [.rd4 b, .rd4 reg]).step_cfg_read hlt h4 rfl
    have hread := (hholds.withPending [.rd4 reg]).step_read rfl
    exact ⟨_, _, (run_succ hcfgRead 1).trans (run_succ (h₁.step_read hp₁) 0), run_succ hread 0, rfl, hbus₁⟩
  case storeCfgRead =>
    obtain ⟨s₁, hstore, hp₁, h₁⟩ := (hholds.withPending _).step_store rfl
    obtain ⟨s', hafter, hreply, -⟩ := h₁.step_cfg_read hlt h4 hp₁
    obtain ⟨s'', halone, hreply', -⟩ := (hholds.withPending [.rd4 b]).step_cfg_read hlt h4 rfl
    exact ⟨s', s'', (run_succ hstore 1).trans (run_succ hafter 0), run_succ halone 0, hreply.trans hreply'.symm⟩

end Sys2Proof.Machine
end

section
/-! PROOFS of the family other: reads without side effect (R65), the transactions that change the hub (R66), and the
diagnostic hook (R200, R201). -/

namespace Sys2Proof.Machine

/-- What a step does with the transaction it takes: it is admitted, and its row answers the step's next state. -/
theorem step_pending_next {s s' : State} {t : Transaction} {rest : List Transaction} (hp : s.pending = t :: rest)
    (hstep : step s = .next s') :
    reject? s.cfg t = none ∧ exec (select s.cfg s.bus.engines t) (s.accept t rest) = .next s' := by
  obtain ⟨hidle, -⟩ | ⟨t', rest', i, hp', hd, hx⟩ := step_next hstep
  · rw [hidle] at hp
    cases hp
  · rw [hp] at hp'
    cases hp'
    obtain ⟨hadmitted, rfl⟩ := decode_ok_iff.1 hd
    exact ⟨hadmitted, hx⟩

/-! Reads -/

/-- A row of engine `j` of another type is selected by an access inside that engine's window (R156, R157). -/
theorem other_hit_of_select {c : Config} {es : List Engine} {t : Transaction} {j r : Nat} (hs : c.sizesOk = true)
    (he : enginesOk c es = true) (hr : reject? c t = none)
    (h : select c es t = .lbusRdEng j r ∨ ∃ d, select c es t = .lbusWrEng j r d) :
    ∃ (e : Engine) (tag : Nat), es[j]? = some e ∧ e.type = .other tag ∧ region c t.addr.toNat = .lbus
      ∧ e.winBase ≤ t.addr.toNat - 0xC00 ∧ t.addr.toNat - 0xC00 < e.winBase + e.winSize := by
  obtain ⟨hhits, haddr⟩ : hitsOther es j r = true ∧ t.addr = windowAddr es j r := by
    obtain ⟨hwf, hencode⟩ := select_names hs he hr
    rcases h with h | ⟨d, h⟩ <;> rw [h] at hwf hencode
    · exact ⟨hwf, congrArg Transaction.addr hencode.symm⟩
    · exact ⟨hwf, congrArg Transaction.addr hencode.symm⟩
  obtain ⟨e, tag, hj, ht, -, hlt⟩ := hitsOther_iff.1 hhits
  obtain ⟨-, -, -, hend⟩ := windowOk_of_getElem? he hj
  have htoNat := windowAddr_toNat hs he hj hlt
  rw [haddr, htoNat]
  exact ⟨e, tag, hj, ht, region_lbus.2 (by omega), by omega, by omega⟩

/-- A row that returns a word leaves the bus, but for the read of an engine of another type (R65). -/
theorem BusEffect.eq_bus_of_read {i : Instr} {s : State} {b : Bus} (h : BusEffect i s b) {n : Nat}
    (hread : readWidth i = some n) (hother : ∀ j r, i ≠ .lbusRdEng j r) : b = s.bus := by
  refine h.eq_bus ?_ ?_ ?_ hother ?_ <;> (intros; rintro rfl; cases hread)

/-- Outside the primary-slave window, a row's reply and its effect on the bus are a function of configuration and bus
(R20). -/
theorem exec_congr {i : Instr} {u u' v : State} (hc : u'.cfg = u.cfg) (hb : u'.bus = u.bus)
    (hslave : ∀ o, i ≠ .slvRd o) (h : exec i u = .next v) :
    ∃ v', exec i u' = .next v' ∧ v'.reply = v.reply ∧ v'.bus = v.bus := by
  cases i with
  | slvRd o => exact absurd rfl (hslave o)
  | cfgRdChipid | cfgRdPeek | cfgRdFsi | cfgRdBreak k =>
    cases h
    exact ⟨_, rfl, by simp [hc], hb⟩
  | cfgWrChipid d | cfgWrPeek d =>
    cases h
    exact ⟨_, rfl, rfl, by simp [hc, hb]⟩
  | cfgRdEngine k =>
    obtain ⟨e, he, rfl⟩ := exec_cfgRdEngine_next h
    exact ⟨_, exec_cfgRdEngine (by rw [hb, he]), by simp [hc], hb⟩
  | scrRdData j =>
    obtain ⟨w, hw, rfl⟩ := exec_scrRdData_next h
    exact ⟨_, exec_scrRdData (by rw [hb, hw]), rfl, hb⟩
  | scrWrData j d =>
    obtain ⟨w, hw, rfl⟩ := exec_scrWrData_next h
    exact ⟨_, exec_scrWrData (by rw [hb, hw]) d, rfl, by simp [hb]⟩
  | lbusRdEng j r =>
    obtain ⟨t, code, hw, rfl⟩ := exec_lbusRdEng_next h
    exact ⟨_, exec_lbusRdEng (by rw [hb, hw]) r, rfl, by simp [hb]⟩
  | lbusWrEng j r d =>
    obtain ⟨t, code, hw, rfl⟩ := exec_lbusWrEng_next h
    exact ⟨_, exec_lbusWrEng (by rw [hb, hw]) r d, rfl, by simp [hb]⟩
  | _ =>
    cases h
    exact ⟨_, rfl, rfl, hb⟩

/-- A read outside the primary-slave window selects no row of that window (R89). -/
theorem select_rd_ne_slvRd {c : Config} (es : List Engine) {a : Addr} (n : Nat) (h : region c a.toNat ≠ .slave)
    (o : Nat) : select c es (.rd a n) ≠ .slvRd o := by
  cases hreg : region c a.toNat with
  | slave => exact absurd hreg h
  | unmapped => rw [select_rd_unmapped hreg]; nofun
  | cfg => rw [select_rd_cfg hreg, selectCfgRead]; split_ifs <;> nofun
  | lbus =>
    rw [select_rd_lbus hreg, selectLbusRead]
    split
    · nofun
    · split_ifs <;> nofun
    · nofun

/-- Settles O51: a read's row leaves the bus but for a hit of another type, and its reply is a function of what it
left. -/
theorem readsHaveNoSideEffect : Obligations.ReadsHaveNoSideEffect := by
  intro s s₁ a n hI hstep
  obtain ⟨hadmitted, hx⟩ := step_issue_next hstep
  refine ⟨fun hnohit => ?_, fun hbus hslave => ?_⟩
  · refine (exec_bus hx).eq_bus_of_read (readWidth_select_rd _ hadmitted) fun j r hi => hnohit ?_
    obtain ⟨e, tag, hj, ht, hhit⟩ := other_hit_of_select hI.sizesOk hI.enginesOk hadmitted (.inl hi)
    exact ⟨j, e, tag, hj, ht, hhit⟩
  · have hcfg : s₁.cfg = s.cfg := (exec_frame hx).1
    obtain ⟨s₂, hx₂, hreply, hbus₂⟩ := exec_congr (u := s.accept (.rd a n) s.pending)
      (u' := s₁.accept (.rd a n) s₁.pending) hcfg hbus (select_rd_ne_slvRd _ n hslave) hx
    have hdecode : decode s₁.cfg s₁.bus.engines (.rd a n) = .ok (select s.cfg s.bus.engines (.rd a n)) := by
      rw [hcfg, hbus]
      exact decode_ok_iff.2 ⟨hadmitted, rfl⟩
    exact ⟨s₂, (step_issue hdecode).trans hx₂, hreply, hbus₂.trans hbus⟩

/-! Writes -/

/-- Settles O52, by the five effects a row can have on the bus, and the transactions that select the rows with an
effect. -/
theorem onlyTheseTransactionsChangeTheHub : Obligations.OnlyTheseTransactionsChangeTheHub := by
  intro s s' t rest hI hp hstep hchange
  obtain ⟨hadmitted, hx⟩ := step_pending_next hp hstep
  have heffect := exec_bus hx
  generalize s'.bus = b at heffect hchange ⊢
  cases heffect with
  | same => exact absurd rfl hchange
  | reset d hi hd =>
    subst hd
    exact .inl ⟨eq_wr4_of_select_trigger hadmitted hi, rfl⟩
  | store j d v hi _ =>
    obtain ⟨hwf, -⟩ := select_names hI.sizesOk hI.enginesOk hadmitted
    obtain ⟨e, hj, ht, -⟩ := hitsScratchpad_iff.1 (hi ▸ hwf)
    exact .inr (.inl ⟨j, e, d, hj, ht, eq_wr4_of_select_scrWrData hadmitted hi, rfl⟩)
  | otherRead j r _ code hi _ =>
    obtain ⟨e, tag, hj, ht, hreg, hlow, hhigh⟩ := other_hit_of_select hI.sizesOk hI.enginesOk hadmitted (.inl hi)
    exact .inr (.inr ⟨j, e, tag, _, hj, ht, hreg, hlow, hhigh, rfl⟩)
  | otherWrite j r _ code d hi _ =>
    obtain ⟨e, tag, hj, ht, hreg, hlow, hhigh⟩ := other_hit_of_select hI.sizesOk hI.enginesOk hadmitted (.inr ⟨d, hi⟩)
    exact .inr (.inr ⟨j, e, tag, _, hj, ht, hreg, hlow, hhigh, rfl⟩)

/-! The diagnostic hook -/

/-- The answer with another trace in its next state; a refusal has none. -/
def Result.withTrace (tr : List TraceEvent) : Result → Result
  | .next s => .next { s with trace := tr }
  | .fault r => .fault r
  | .refused r => .refused r

/-- A row run from another trace answers the same but for the trace (R200). -/
theorem exec_withTrace (i : Instr) (u : State) (tr : List TraceEvent) :
    ∃ tr', exec i { u with trace := tr } = Result.withTrace tr' (exec i u) := by
  cases i with
  | cfgRdEngine k => simp only [exec, execCfgRdEngine]; split <;> exact ⟨tr, rfl⟩
  | scrRdData j => simp only [exec, execScrRdData]; split <;> exact ⟨tr, rfl⟩
  | scrWrData j d => simp only [exec, execScrWrData]; split <;> exact ⟨tr, rfl⟩
  | lbusRdEng j r => simp only [exec, execLbusRdEng]; split <;> exact ⟨tr, rfl⟩
  | lbusWrEng j r d => simp only [exec, execLbusWrEng]; split <;> exact ⟨tr, rfl⟩
  | _ => exact ⟨_, rfl⟩

/-- A step from another trace answers the same but for the trace (R200). -/
theorem step_withTrace (s : State) (tr : List TraceEvent) :
    ∃ tr', step { s with trace := tr } = Result.withTrace tr' (step s) := by
  by_cases hidle : s.pending = []
  · exact ⟨tr, by simp only [step, hidle, Result.withTrace]⟩
  · obtain ⟨t, rest, hp⟩ := List.exists_cons_of_ne_nil hidle
    cases hd : decode s.cfg s.bus.engines t with
    | error r => exact ⟨tr, by simp only [step, hp, hd, Result.withTrace]⟩
    | ok i =>
      rw [step_of_pending (s := { s with trace := tr }) hp hd, step_of_pending hp hd]
      exact exec_withTrace i (s.accept t rest) _

/-- The hook appends at most the event offered (R200). -/
theorem State.offer_trace_append (s : State) (ev : TraceEvent) :
    ∃ l, (s.offer ev).trace = s.trace ++ l ∧ l.Sublist [ev] := by
  rcases State.offer_trace_cases s ev with h | h
  · exact ⟨[], by rw [h, List.append_nil], List.nil_sublist _⟩
  · exact ⟨[ev], h, List.Sublist.refl _⟩

/-- Only a configuration write at register unit 2 or above offers an event of its own (R133, R201). -/
theorem exec_trace {i : Instr} {u v : State} (h : exec i u = .next v) : ∃ l, v.trace = u.trace ++ l
    ∧ (l = [] ∨ ∃ unit d, i = .cfgWrOther unit d ∧ l.Sublist [.unrecognisedWrite (4 * unit) 4 d.toNat]) := by
  by_cases hi : ∃ unit d, i = .cfgWrOther unit d
  · obtain ⟨unit, d, rfl⟩ := hi
    cases h
    obtain ⟨l, htrace, hl⟩ := u.offer_trace_append (.unrecognisedWrite (4 * unit) 4 d.toNat)
    exact ⟨l, htrace, .inr ⟨unit, d, rfl, hl⟩⟩
  · refine ⟨[], ?_, .inl rfl⟩
    rw [List.append_nil]
    cases i with
    | cfgWrOther unit d => exact absurd ⟨unit, d, rfl⟩ hi
    | cfgRdEngine k => obtain ⟨e, -, rfl⟩ := exec_cfgRdEngine_next h; rfl
    | scrRdData j => obtain ⟨w, -, rfl⟩ := exec_scrRdData_next h; rfl
    | scrWrData j d => obtain ⟨w, -, rfl⟩ := exec_scrWrData_next h; rfl
    | lbusRdEng j r => obtain ⟨t, code, -, rfl⟩ := exec_lbusRdEng_next h; rfl
    | lbusWrEng j r d => obtain ⟨t, code, -, rfl⟩ := exec_lbusWrEng_next h; rfl
    | _ => cases h; rfl

/-- The row `CFG.WR.OTHER` is selected by a `WR4` of its register unit alone (R133). -/
theorem eq_wr4_of_select_cfgWrOther {c : Config} {es : List Engine} {t : Transaction} {unit : Nat} {d : Word}
    (hr : reject? c t = none) (h : select c es t = .cfgWrOther unit d) :
    ∃ a : Addr, t = .wr4 a d ∧ a.toNat = 4 * unit ∧ 0x008 ≤ a.toNat ∧ a.toNat < 0x400 := by
  obtain ⟨a, n, d', rfl⟩ := wr_of_readWidth_none (es := es) hr (by rw [h]; rfl)
  cases hreg : region c a.toNat with
  | slave => rw [select_wr_slave hreg] at h; cases h
  | unmapped => rw [select_wr_unmapped hreg] at h; cases h
  | lbus =>
    rw [select_wr_lbus hreg] at h
    obtain ⟨-, hsel⟩ | ⟨k, e, -, ⟨-, -, hsel⟩ | ⟨-, -, hsel⟩ | ⟨tag, -, hsel⟩⟩ :=
      selectLbusWrite_cases es (a.toNat - 0xC00) (d'.setWidth 32) <;> rw [hsel] at h <;> cases h
  | cfg =>
    obtain ⟨hwr4, haligned⟩ := wr4_of_mapped hr (by simp [hreg])
    rw [select_wr_cfg hreg, selectCfgWrite_eq] at h
    split_ifs at h with h0 h1
    injection h with hunit hdata
    exact ⟨a, hwr4.trans (by rw [hdata]), by omega, by omega, region_cfg.1 hreg⟩

/-- What a step that takes a transaction appends to the trace: its access event at most, and after it, for a write of
the Configuration Region at 0x008 or above, the unrecognised-write event at most (R200, R201). -/
theorem step_trace {s s' : State} {t : Transaction} {rest : List Transaction} (hp : s.pending = t :: rest)
    (hstep : step s = .next s') :
    ∃ l₁ l₂, s'.trace = s.trace ++ (l₁ ++ l₂) ∧ l₁.Sublist [State.accessEvent t]
      ∧ (l₂ = [] ∨ ∃ (a : Addr) (d : Word), t = .wr4 a d ∧ 0x008 ≤ a.toNat ∧ a.toNat < 0x400
          ∧ l₂.Sublist [.unrecognisedWrite a.toNat 4 d.toNat]) := by
  obtain ⟨hadmitted, hx⟩ := step_pending_next hp hstep
  obtain ⟨l₁, htaken, hl₁⟩ := State.offer_trace_append { s with pending := rest } (State.accessEvent t)
  obtain ⟨l₂, hrow, hl₂⟩ := exec_trace hx
  refine ⟨l₁, l₂, ?_, hl₁, hl₂.imp_right ?_⟩
  · rw [← List.append_assoc, ← htaken]
    exact hrow
  · rintro ⟨unit, d, hi, hsub⟩
    obtain ⟨a, rfl, ha, hlow, hhigh⟩ := eq_wr4_of_select_cfgWrOther hadmitted hi
    exact ⟨a, d, rfl, hlow, hhigh, ha ▸ hsub⟩

/-- Settles O53: the answer from another trace is the same but for it, and each event is appended. -/
theorem traceIsASideChannel : Obligations.TraceIsASideChannel := by
  refine ⟨fun s s' tr hstep => ?_, fun s r tr hstep => ?_, fun s s' hstep => ?_⟩
  · obtain ⟨tr', h⟩ := step_withTrace s tr
    exact ⟨tr', by rw [h, hstep, Result.withTrace]⟩
  · obtain ⟨tr', h⟩ := step_withTrace s tr
    rw [h, hstep, Result.withTrace]
  · cases hp : s.pending with
    | nil =>
      obtain rfl : s = s' := Host.Outcome.next.inj ((idleStepChangesNothing s hp).symm.trans hstep)
      exact ⟨[], List.append_nil _⟩
    | cons t rest =>
      obtain ⟨l₁, l₂, htrace, -⟩ := step_trace hp hstep
      exact ⟨_, htrace.symm⟩

/-- Settles O54, from what a step appends. -/
theorem eventsOfATransaction : Obligations.EventsOfATransaction := by
  intro s s' t rest hp hstep
  obtain ⟨l₁, l₂, htrace, hl₁, hl₂⟩ := step_trace hp hstep
  refine ⟨l₁ ++ l₂, htrace, ?_⟩
  rcases hl₂ with rfl | ⟨a, d, rfl, hlow, hhigh, hl₂⟩
  · rw [List.append_nil]
    cases t with
    | rd a n => exact hl₁
    | wr a n d =>
      simp only
      split_ifs
      · exact hl₁.trans (List.sublist_append_left _ _)
      · exact hl₁
  · rw [Transaction.wr4]
    simp only
    rw [if_pos ⟨hhigh, hlow⟩]
    exact hl₁.append hl₂

end Sys2Proof.Machine
end

section
/-! PROOFS of the family other: command words written out from the rules, in every default configuration (R81, R89). -/

namespace Sys2Proof

/-- The command word of an operation whose condition holds decodes to the operation, with its data beside it (R81). -/
theorem decode_ofCmd {c : Config} (hc : c.wf = true) {i : Instr} {cmd : BitVec 24} (hw : i.wf c c.engines = true)
    (hcmd : (encode c.engines i).cmd? = some cmd) :
    decode c c.engines (.ofCmd cmd (encode c.engines i).data) = .ok i := by
  obtain ⟨-, -, hs, he, h4⟩ := Config.wf_parts hc
  rw [Transaction.ofCmd_of_cmd? hcmd]
  exact decodeOfEncode c c.engines i hs he h4 hw

/-- A table word of 24 bits is its command word with the data 0 (log 14). -/
theorem ofTableWord_eq {w : Nat} (h : w < 2 ^ 24) : Transaction.ofTableWord 24 w = .ofCmd (BitVec.ofNat 24 w) 0 := by
  rw [Transaction.ofTableWord, Nat.mod_eq_of_lt h, Nat.div_eq_of_lt h]

/-- The table word of an operation without data decodes to it at reset, when its condition holds there. -/
theorem decodeTableWord_eq {i : Instr} {w : Nat} (hlt : w < 2 ^ 24)
    (hw : i.wf Platform.resetConfig Platform.resetConfig.engines = true)
    (hcmd : (encode Platform.resetConfig.engines i).cmd? = some (BitVec.ofNat 24 w))
    (hdata : (encode Platform.resetConfig.engines i).data = 0) : decodeTableWord 24 w = some i := by
  have hdecode := decode_ofCmd (c := Platform.resetConfig) (Platform.meetR8_wf _) hw hcmd
  rw [hdata] at hdecode
  simp only [decodeTableWord, ofTableWord_eq hlt, hdecode]

/-- A transaction that is not admitted decodes to no operation (R93). -/
theorem exists_decode_error {c : Config} {t : Transaction} (es : List Engine) (h : reject? c t ≠ none) :
    ∃ r, decode c es t = .error r := by
  obtain ⟨r, hr⟩ := Option.ne_none_iff_exists'.1 h
  exact ⟨r, decode_error_iff.2 hr⟩

section
variable {c : Config}

/-- The bootstrap Scratchpad's window lies at the base of the Secondary Bus region (R211). -/
theorem windowAddr_bootstrap (r : Nat) : windowAddr c.engines 0 r = BitVec.ofNat 21 (0xC00 + r) := rfl

/-- An aligned offset of the bootstrap Scratchpad's window (R211). -/
theorem hitsScratchpad_bootstrap {r : Nat} (h4 : r % 4 = 0) (hlt : r < c.scratchWin) :
    hitsScratchpad c.engines 0 r = true :=
  hitsScratchpad_iff.2 ⟨c.bootstrap, rfl, rfl, h4, hlt⟩

/-- The primary-slave window is not empty (R8), so its offset 0 is read. -/
theorem slvRd_zero_wf (hs : c.sizesOk = true) (es : List Engine) : (Instr.slvRd 0).wf c es = true :=
  decide_eq_true ⟨rfl, (sizesOk_iff.1 hs).1.1⟩

/-- Past the bootstrap Scratchpad's window a default configuration has a hole (R9, R61). -/
theorem inHole_default (hf : c.further = []) {o : Nat} (h4 : o % 4 = 0) (hlow : c.scratchWin ≤ o)
    (hhigh : o < c.lbusSize) : inHole c c.engines o = true := by
  refine inHole_iff.2 ⟨h4, hhigh, windowHit_none.2 fun e hmem => ?_⟩
  rw [Config.engines, hf, List.mem_singleton] at hmem
  rw [hmem]
  show ¬ (0 ≤ o ∧ o < 0 + c.scratchWin)
  omega

/-- The words between the Configuration Region and the primary-slave window are unmapped (R60). -/
theorem inUnmapped_gap {a n : Nat} (hn : n ∈ c.accessSizes) (hpos : 0 < n) (hlow : 0x400 ≤ a) (hhigh : a + n ≤ 0x800) :
    inUnmapped c a n = true := by
  have hbyte : ∀ i < n, region c (a + i) = .unmapped := fun i hi => region_unmapped.2 (by omega)
  have hfirst := hbyte 0 hpos
  exact inUnmapped_iff.2 ⟨hn, by omega, hfirst, inOneRegion_iff.2 fun i hi => (hbyte i hi).trans hfirst.symm⟩

/-- A word that straddles the base of the primary-slave window is refused (R57). -/
theorem reject?_straddle (hc : c.wf = true) : reject? c (.rd4 0x7FD) ≠ none := by
  obtain ⟨-, -, hs, -, -⟩ := Config.wf_parts hc
  have hsize := (sizesOk_iff.1 hs).1
  have hfirst : region c 0x7FD = .unmapped := region_unmapped.2 (by omega)
  have hlast : region c (0x7FD + 3) = .slave := (region_slave hs).2 (by omega)
  intro hr
  obtain ⟨-, -, -, hone⟩ := reject?_none_iff.1 hr
  have hsame : region c (0x7FD + 3) = region c 0x7FD := inOneRegion_iff.1 hone 3 (by decide)
  rw [hlast, hfirst] at hsame
  cases hsame

/-- A byte read of the Configuration Region is refused (R56). -/
theorem reject?_cfg_byte : reject? c (.rd 0x000 1) ≠ none := by
  intro hr
  obtain ⟨-, -, hshape, -⟩ := reject?_none_iff.1 hr
  have hcfg : region c 0 = .cfg := region_cfg.2 (by decide)
  have hone : (1 : Nat) = 4 := (hshape (by rw [Transaction.addr_rd]; exact hcfg ▸ nofun)).1
  omega

end

/-- Settles O7: each word is the command word of an operation whose condition holds; the two others are words of
transactions outside the interface. -/
theorem tableWordsDecode : Obligations.TableWordsDecode := by
  refine ⟨fun c d hc hf => ?_, ?_⟩
  · obtain ⟨-, -, hs, -, h4⟩ := Config.wf_parts hc
    obtain ⟨-, -, hwin, -, -⟩ := sizesOk_iff.1 hs
    have hlen : c.engines.length = 1 := by rw [Config.engines, hf, List.length_singleton]
    have hend : (encode c.engines .cfgRdEnd).cmd? = some 0x400010 := by rw [encode, hlen]; rfl
    have hregister : hitsScratchpad c.engines 0 0 = true := hitsScratchpad_bootstrap rfl (by omega)
    refine ⟨decode_ofCmd hc (i := .cfgRdChipid) rfl rfl, decode_ofCmd hc (i := .cfgRdPeek) rfl rfl,
      decode_ofCmd hc (i := .cfgRdFsi) rfl rfl,
      decode_ofCmd hc (i := .cfgRdEngine 0) (by rw [Instr.wf, hlen]; rfl) rfl,
      decode_ofCmd hc (i := .cfgRdEnd) (by rw [Instr.wf, hlen]; rfl) hend,
      decode_ofCmd hc (i := .cfgRdBreak 252) (by rw [Instr.wf, hlen]; rfl) rfl,
      decode_ofCmd hc (i := .cfgWrChipid d) rfl rfl, decode_ofCmd hc (i := .cfgWrPeek d) rfl rfl,
      decode_ofCmd hc (i := .cfgWrOther 2 d) rfl rfl,
      decode_ofCmd hc (i := .slvRd 0) (slvRd_zero_wf hs _) rfl,
      decode_ofCmd hc (i := .slvWr 0 d) (slvRd_zero_wf hs c.engines) rfl,
      decode_ofCmd hc (i := .scrRdData 0) hregister (by rw [encode, windowAddr_bootstrap]; rfl),
      decode_ofCmd hc (i := .scrWrData 0 d) hregister (by rw [encode, windowAddr_bootstrap]; rfl),
      fun hpad => ?pad, fun hwin hlbus => ?hole, fun hwidth => ?narrow, ?gap, ?straddle, ?byte⟩
    case pad =>
      have hhits : hitsScratchpad c.engines 0 4 = true := hitsScratchpad_bootstrap rfl hpad
      have hwf : (Instr.scrRdPad 0 4).wf c c.engines = true := by rw [Instr.wf, hhits]; rfl
      exact ⟨decode_ofCmd hc (i := .scrRdPad 0 4) hwf (by rw [encode, windowAddr_bootstrap]; rfl),
        decode_ofCmd hc (i := .scrWrPad 0 4 d) hwf (by rw [encode, windowAddr_bootstrap]; rfl)⟩
    case hole =>
      have hhole : inHole c c.engines 0x400 = true := inHole_default hf rfl hwin.le hlbus
      exact ⟨decode_ofCmd hc (i := .lbusRdHole 0x400) hhole rfl, decode_ofCmd hc (i := .lbusWrHole 0x400 d) hhole rfl⟩
    case narrow =>
      exact decode_ofCmd hc (i := .unmRd 0x7FE 2)
        (inUnmapped_gap (a := 0x7FE) hwidth (by decide) (by decide) (by decide)) rfl
    case gap =>
      exact decode_ofCmd hc (i := .unmWr 0x400 4 d)
        (inUnmapped_gap (a := 0x400) h4 (by decide) (by decide) (by decide)) rfl
    case straddle => exact exists_decode_error c.engines (reject?_straddle hc)
    case byte => exact exists_decode_error c.engines reject?_cfg_byte
  · have hc : Platform.resetConfig.wf = true := Platform.meetR8_wf _
    obtain ⟨-, -, hs, -, h4⟩ := Config.wf_parts hc
    obtain ⟨-, -, hwin, -, -⟩ := sizesOk_iff.1 hs
    have hregister : hitsScratchpad Platform.resetConfig.engines 0 0 = true := hitsScratchpad_bootstrap rfl (by omega)
    refine ⟨decodeTableWord_eq (i := .cfgRdChipid) (by decide) rfl rfl rfl,
      decodeTableWord_eq (i := .cfgRdEngine 0) (by decide) rfl rfl rfl,
      decodeTableWord_eq (i := .cfgRdEnd) (by decide) rfl rfl rfl,
      decodeTableWord_eq (i := .cfgRdBreak 252) (by decide) rfl rfl rfl,
      decodeTableWord_eq (i := .cfgWrPeek 0) (by decide) rfl rfl rfl,
      decodeTableWord_eq (i := .cfgWrOther 2 0) (by decide) rfl rfl rfl,
      decodeTableWord_eq (i := .slvRd 0) (by decide) (slvRd_zero_wf hs _) rfl rfl,
      decodeTableWord_eq (i := .scrRdData 0) (by decide) hregister (by rw [encode, windowAddr_bootstrap]; rfl) rfl,
      decodeTableWord_eq (i := .scrWrData 0 0) (by decide) hregister (by rw [encode, windowAddr_bootstrap]; rfl) rfl,
      decodeTableWord_eq (i := .unmRd 0x400 4) (by decide)
        (inUnmapped_gap (a := 0x400) h4 (by decide) (by decide) (by decide)) rfl rfl, ?_⟩
    have hword : Transaction.ofTableWord 24 0x4007FD = .rd4 0x7FD := by rw [ofTableWord_eq (by decide)]; rfl
    obtain ⟨r, hr⟩ := exists_decode_error Platform.resetConfig.engines (reject?_straddle hc)
    simp only [decodeTableWord, hword, hr]

end Sys2Proof
end
